-- ==== Sys2Proof/Word.lean ====
section
/-! DEFINITION. The machine's number types (10_state.md R10 to R17, 00_scope.md R5, R8). -/

namespace Sys2Proof

/-- One byte: the unit of memory and the width of a general register (R10, R30). -/
abbrev Byte := BitVec 8

/-- Sixteen bits: the program counter, the index register, a stack entry, an instruction word (R12, R13, R14, R50). -/
abbrev Word := BitVec 16

/-- The index of a general register, 0x0 to 0xF: no index is out of range (R10). -/
abbrev Reg := Fin 16

/-- A logical key, 0x0 to 0xF (47_input_timers_random.md R147). -/
abbrev Key := Fin 16

/-- `V[0xF]`, the register that doubles as the carry, borrow and collision flag (R11). -/
abbrev regF : Reg := 15

end Sys2Proof
end

