-- ==== Sys2Proof/Syntax.lean ====
section
/-! DEFINITION. The 34 instructions of the opcode map (30_encoding.md R55), one constructor per row of the table.
A register operand is a `Reg`, NN a byte; NNN ("an unsigned 12-bit number") and N ("an unsigned row count", R53) are
numbers whose range `Instr.wellFormed` checks. The bits the decoder ignores are no operands (R56, log 9). -/

namespace Sys2Proof

inductive Instr where
  /-- `0xx0` CLS: clear the frame buffer (R130). -/
  | cls
  /-- `0xxE` RET: return from a subroutine (R87). -/
  | ret
  /-- `1NNN` JP NNN (R85). -/
  | jp (nnn : Nat)
  /-- `2NNN` CALL NNN (R86). -/
  | call (nnn : Nat)
  /-- `3XNN` SE Vx, NN (R95). -/
  | seVxNn (x : Reg) (nn : Byte)
  /-- `4XNN` SNE Vx, NN (R96). -/
  | sneVxNn (x : Reg) (nn : Byte)
  /-- `5XYx` SE Vx, Vy (R97). -/
  | seVxVy (x y : Reg)
  /-- `6XNN` LD Vx, NN (R100). -/
  | ldVxNn (x : Reg) (nn : Byte)
  /-- `7XNN` ADD Vx, NN (R101). -/
  | addVxNn (x : Reg) (nn : Byte)
  /-- `8XY0` LD Vx, Vy (R105). -/
  | ldVxVy (x y : Reg)
  /-- `8XY1` OR Vx, Vy (R106). -/
  | orVxVy (x y : Reg)
  /-- `8XY2` AND Vx, Vy (R107). -/
  | andVxVy (x y : Reg)
  /-- `8XY3` XOR Vx, Vy (R108). -/
  | xorVxVy (x y : Reg)
  /-- `8XY4` ADD Vx, Vy (R109). -/
  | addVxVy (x y : Reg)
  /-- `8XY5` SUB Vx, Vy (R110). -/
  | subVxVy (x y : Reg)
  /-- `8XY6` SHR Vx, Vy (R111). -/
  | shrVxVy (x y : Reg)
  /-- `8XY7` SUBN Vx, Vy (R112). -/
  | subnVxVy (x y : Reg)
  /-- `8XYE` SHL Vx, Vy (R113). -/
  | shlVxVy (x y : Reg)
  /-- `9XYx` SNE Vx, Vy (R98). -/
  | sneVxVy (x y : Reg)
  /-- `ANNN` LD I, NNN (R120). -/
  | ldINnn (nnn : Nat)
  /-- `BNNN` JP VF, NNN (R88). -/
  | jpVfNnn (nnn : Nat)
  /-- `CXNN` RND Vx, NN (R146). -/
  | rndVxNn (x : Reg) (nn : Byte)
  /-- `DXYN` DRW Vx, Vy, N (R131). -/
  | drwVxVyN (x y : Reg) (n : Nat)
  /-- `EX9E` SKP Vx (R140). -/
  | skpVx (x : Reg)
  /-- `EXA1` SKNP Vx (R141). -/
  | sknpVx (x : Reg)
  /-- `FX07` LD Vx, DT (R143). -/
  | ldVxDt (x : Reg)
  /-- `FX0A` LD Vx, K (R142). -/
  | ldVxK (x : Reg)
  /-- `FX15` LD DT, Vx (R144). -/
  | ldDtVx (x : Reg)
  /-- `FX18` LD ST, Vx (R145). -/
  | ldStVx (x : Reg)
  /-- `FX1E` ADD I, Vx (R121). -/
  | addIVx (x : Reg)
  /-- `FX29` LD F, Vx (R122). -/
  | ldFVx (x : Reg)
  /-- `FX33` LD B, Vx (R123). -/
  | ldBVx (x : Reg)
  /-- `FX55` LD [I], Vx (R124). -/
  | ldMemVx (x : Reg)
  /-- `FX65` LD Vx, [I] (R125). -/
  | ldVxMem (x : Reg)
deriving DecidableEq, Repr

end Sys2Proof
end

