-- ==== Sys2Proof/WellFormed.lean ====
section
/-! DEFINITION. Which terms of `Instr` are instructions of the hardware: NNN has 12 bits and N has 4
(30_encoding.md R51, R53). -/

namespace Sys2Proof

/-- NNN is "an unsigned 12-bit number 0..4095" (R53). -/
def addressFits (nnn : Nat) : Bool := nnn < 4096

/-- N in DXYN is "an unsigned row count 0..15" (R53). -/
def rowCountFits (n : Nat) : Bool := n < 16

/-- The check on an instruction's operands: register numbers and NN fit by their types. -/
def Instr.wellFormed : Instr → Bool
  | .cls => true
  | .ret => true
  | .jp nnn => addressFits nnn
  | .call nnn => addressFits nnn
  | .seVxNn _ _ => true
  | .sneVxNn _ _ => true
  | .seVxVy _ _ => true
  | .ldVxNn _ _ => true
  | .addVxNn _ _ => true
  | .ldVxVy _ _ => true
  | .orVxVy _ _ => true
  | .andVxVy _ _ => true
  | .xorVxVy _ _ => true
  | .addVxVy _ _ => true
  | .subVxVy _ _ => true
  | .shrVxVy _ _ => true
  | .subnVxVy _ _ => true
  | .shlVxVy _ _ => true
  | .sneVxVy _ _ => true
  | .ldINnn nnn => addressFits nnn
  | .jpVfNnn nnn => addressFits nnn
  | .rndVxNn _ _ => true
  | .drwVxVyN _ _ n => rowCountFits n
  | .skpVx _ => true
  | .sknpVx _ => true
  | .ldVxDt _ => true
  | .ldVxK _ => true
  | .ldDtVx _ => true
  | .ldStVx _ => true
  | .addIVx _ => true
  | .ldFVx _ => true
  | .ldBVx _ => true
  | .ldMemVx _ => true
  | .ldVxMem _ => true

end Sys2Proof
end

