-- ==== Sys2Proof/Decode.lean ====
section
/-! DEFINITION. The fields of an instruction word (30_encoding.md R51), the decoder of R59, the encoder (R55, with the
canonical words of R60 for the rows that have ignored bits), and the masks and patterns of the opcode map. -/

namespace Sys2Proof

/-! The fields (R51). -/

/-- `class = w[15:12]`. -/
def fieldClass (w : Word) : Nat := (w.extractLsb' 12 4).toNat

/-- `X = w[11:8]`. -/
def fieldX (w : Word) : Reg := (w.extractLsb' 8 4).toFin

/-- `Y = w[7:4]`. -/
def fieldY (w : Word) : Reg := (w.extractLsb' 4 4).toFin

/-- `N = w[3:0]`. -/
def fieldN (w : Word) : Nat := (w.extractLsb' 0 4).toNat

/-- `NN = w[7:0]`. -/
def fieldNn (w : Word) : Byte := w.extractLsb' 0 8

/-- `NNN = w[11:0]`. -/
def fieldNnn (w : Word) : Nat := (w.extractLsb' 0 12).toNat

/-- The instruction word of two bytes in the order they are stored: "first byte is high byte" (R50, 20_memory.md R34). -/
def wordOfBytes (hi lo : Byte) : Word := hi ++ lo

/-- The byte of an instruction word stored first. -/
def highByte (w : Word) : Byte := w.extractLsb' 8 8

/-- The byte of an instruction word stored second. -/
def lowByte (w : Word) : Byte := w.extractLsb' 0 8

/-! The decoder (R54, R59). -/

/-- Why a word, or a run of bytes, is no instruction. The first four are the four groups of invalid words of R57. -/
inductive Rejection where
  /-- Class 0x0 with N not 0x0 or 0xE. -/
  | class0 (n : Nat)
  /-- Class 0x8 with N in 0x8..0xD or 0xF. -/
  | class8 (n : Nat)
  /-- Class 0xE with NN not 0x9E or 0xA1. -/
  | classE (nn : Byte)
  /-- Class 0xF with NN not one of the nine. -/
  | classF (nn : Byte)
  /-- Fewer than the two bytes of an instruction (R50): never from a fetch, which always reads two. -/
  | truncated
deriving DecidableEq, Repr

/-- What the decoder answers: an instruction, or the named reason why there is none. -/
inductive Decoded where
  | instr (i : Instr)
  | invalid (r : Rejection)
deriving DecidableEq, Repr

/-- Class 0x0: the discriminant is N alone; bits 11:4 are ignored (R56). -/
def decodeClass0 (w : Word) : Decoded :=
  match fieldN w with
  | 0x0 => .instr .cls
  | 0xE => .instr .ret
  | n => .invalid (.class0 n)

/-- Class 0x8: the discriminant is N (R59). -/
def decodeClass8 (w : Word) : Decoded :=
  match fieldN w with
  | 0x0 => .instr (.ldVxVy (fieldX w) (fieldY w))
  | 0x1 => .instr (.orVxVy (fieldX w) (fieldY w))
  | 0x2 => .instr (.andVxVy (fieldX w) (fieldY w))
  | 0x3 => .instr (.xorVxVy (fieldX w) (fieldY w))
  | 0x4 => .instr (.addVxVy (fieldX w) (fieldY w))
  | 0x5 => .instr (.subVxVy (fieldX w) (fieldY w))
  | 0x6 => .instr (.shrVxVy (fieldX w) (fieldY w))
  | 0x7 => .instr (.subnVxVy (fieldX w) (fieldY w))
  | 0xE => .instr (.shlVxVy (fieldX w) (fieldY w))
  | n => .invalid (.class8 n)

/-- Class 0xE: the discriminant is NN (R59). -/
def decodeClassE (w : Word) : Decoded :=
  match (fieldNn w).toNat with
  | 0x9E => .instr (.skpVx (fieldX w))
  | 0xA1 => .instr (.sknpVx (fieldX w))
  | _ => .invalid (.classE (fieldNn w))

/-- Class 0xF: the discriminant is NN (R59). -/
def decodeClassF (w : Word) : Decoded :=
  match (fieldNn w).toNat with
  | 0x07 => .instr (.ldVxDt (fieldX w))
  | 0x0A => .instr (.ldVxK (fieldX w))
  | 0x15 => .instr (.ldDtVx (fieldX w))
  | 0x18 => .instr (.ldStVx (fieldX w))
  | 0x1E => .instr (.addIVx (fieldX w))
  | 0x29 => .instr (.ldFVx (fieldX w))
  | 0x33 => .instr (.ldBVx (fieldX w))
  | 0x55 => .instr (.ldMemVx (fieldX w))
  | 0x65 => .instr (.ldVxMem (fieldX w))
  | _ => .invalid (.classF (fieldNn w))

/-- The decoder of R59, total on the 65536 words. The class has four bits, so the last arm is class 0xF. -/
def decodeWord (w : Word) : Decoded :=
  match fieldClass w with
  | 0x0 => decodeClass0 w
  | 0x1 => .instr (.jp (fieldNnn w))
  | 0x2 => .instr (.call (fieldNnn w))
  | 0x3 => .instr (.seVxNn (fieldX w) (fieldNn w))
  | 0x4 => .instr (.sneVxNn (fieldX w) (fieldNn w))
  | 0x5 => .instr (.seVxVy (fieldX w) (fieldY w))
  | 0x6 => .instr (.ldVxNn (fieldX w) (fieldNn w))
  | 0x7 => .instr (.addVxNn (fieldX w) (fieldNn w))
  | 0x8 => decodeClass8 w
  | 0x9 => .instr (.sneVxVy (fieldX w) (fieldY w))
  | 0xA => .instr (.ldINnn (fieldNnn w))
  | 0xB => .instr (.jpVfNnn (fieldNnn w))
  | 0xC => .instr (.rndVxNn (fieldX w) (fieldNn w))
  | 0xD => .instr (.drwVxVyN (fieldX w) (fieldY w) (fieldN w))
  | 0xE => decodeClassE w
  | _ => decodeClassF w

/-- The decoder on any bytes: the instruction of the first two (R50). -/
def decodeBytes : List Byte → Decoded
  | hi :: lo :: _ => decodeWord (wordOfBytes hi lo)
  | _ => .invalid .truncated

/-! The encoder (R55, R60). -/

/-- Format A: class and NNN (R52). -/
def wordA (cls nnn : Nat) : Word := BitVec.ofNat 16 (cls * 0x1000 + nnn)

/-- Formats XI and XF: class, X, and the byte that is NN or the discriminant (R52). -/
def wordXI (cls : Nat) (x : Reg) (nn : Nat) : Word := BitVec.ofNat 16 (cls * 0x1000 + x.val * 0x100 + nn)

/-- Format XY: class, X, Y, and the nibble that is N or the discriminant (R52). -/
def wordXY (cls : Nat) (x y : Reg) (n : Nat) : Word :=
  BitVec.ofNat 16 (cls * 0x1000 + x.val * 0x100 + y.val * 0x10 + n)

/-- The word of a well-formed instruction; the canonical one of R60 where the row has ignored bits. -/
def encode : Instr → Word
  | .cls => 0x00E0
  | .ret => 0x00EE
  | .jp nnn => wordA 0x1 nnn
  | .call nnn => wordA 0x2 nnn
  | .seVxNn x nn => wordXI 0x3 x nn.toNat
  | .sneVxNn x nn => wordXI 0x4 x nn.toNat
  | .seVxVy x y => wordXY 0x5 x y 0x0
  | .ldVxNn x nn => wordXI 0x6 x nn.toNat
  | .addVxNn x nn => wordXI 0x7 x nn.toNat
  | .ldVxVy x y => wordXY 0x8 x y 0x0
  | .orVxVy x y => wordXY 0x8 x y 0x1
  | .andVxVy x y => wordXY 0x8 x y 0x2
  | .xorVxVy x y => wordXY 0x8 x y 0x3
  | .addVxVy x y => wordXY 0x8 x y 0x4
  | .subVxVy x y => wordXY 0x8 x y 0x5
  | .shrVxVy x y => wordXY 0x8 x y 0x6
  | .subnVxVy x y => wordXY 0x8 x y 0x7
  | .shlVxVy x y => wordXY 0x8 x y 0xE
  | .sneVxVy x y => wordXY 0x9 x y 0x0
  | .ldINnn nnn => wordA 0xA nnn
  | .jpVfNnn nnn => wordA 0xB nnn
  | .rndVxNn x nn => wordXI 0xC x nn.toNat
  | .drwVxVyN x y n => wordXY 0xD x y n
  | .skpVx x => wordXI 0xE x 0x9E
  | .sknpVx x => wordXI 0xE x 0xA1
  | .ldVxDt x => wordXI 0xF x 0x07
  | .ldVxK x => wordXI 0xF x 0x0A
  | .ldDtVx x => wordXI 0xF x 0x15
  | .ldStVx x => wordXI 0xF x 0x18
  | .addIVx x => wordXI 0xF x 0x1E
  | .ldFVx x => wordXI 0xF x 0x29
  | .ldBVx x => wordXI 0xF x 0x33
  | .ldMemVx x => wordXI 0xF x 0x55
  | .ldVxMem x => wordXI 0xF x 0x65

/-- The bytes of a well-formed instruction in the order they are stored: "The assembler emits the high byte first" (R60). -/
def encodeBytes (i : Instr) : List Byte := [highByte (encode i), lowByte (encode i)]

/-! The opcode map: the row of an instruction as R55 prints it, and the bits of its word that the decoder ignores. -/

/-- `match` and `mask` of the instruction's row (R55). -/
def Instr.row : Instr → Word × Word
  | .cls => (0x0000, 0xF00F)
  | .ret => (0x000E, 0xF00F)
  | .jp _ => (0x1000, 0xF000)
  | .call _ => (0x2000, 0xF000)
  | .seVxNn _ _ => (0x3000, 0xF000)
  | .sneVxNn _ _ => (0x4000, 0xF000)
  | .seVxVy _ _ => (0x5000, 0xF000)
  | .ldVxNn _ _ => (0x6000, 0xF000)
  | .addVxNn _ _ => (0x7000, 0xF000)
  | .ldVxVy _ _ => (0x8000, 0xF00F)
  | .orVxVy _ _ => (0x8001, 0xF00F)
  | .andVxVy _ _ => (0x8002, 0xF00F)
  | .xorVxVy _ _ => (0x8003, 0xF00F)
  | .addVxVy _ _ => (0x8004, 0xF00F)
  | .subVxVy _ _ => (0x8005, 0xF00F)
  | .shrVxVy _ _ => (0x8006, 0xF00F)
  | .subnVxVy _ _ => (0x8007, 0xF00F)
  | .shlVxVy _ _ => (0x800E, 0xF00F)
  | .sneVxVy _ _ => (0x9000, 0xF000)
  | .ldINnn _ => (0xA000, 0xF000)
  | .jpVfNnn _ => (0xB000, 0xF000)
  | .rndVxNn _ _ => (0xC000, 0xF000)
  | .drwVxVyN _ _ _ => (0xD000, 0xF000)
  | .skpVx _ => (0xE09E, 0xF0FF)
  | .sknpVx _ => (0xE0A1, 0xF0FF)
  | .ldVxDt _ => (0xF007, 0xF0FF)
  | .ldVxK _ => (0xF00A, 0xF0FF)
  | .ldDtVx _ => (0xF015, 0xF0FF)
  | .ldStVx _ => (0xF018, 0xF0FF)
  | .addIVx _ => (0xF01E, 0xF0FF)
  | .ldFVx _ => (0xF029, 0xF0FF)
  | .ldBVx _ => (0xF033, 0xF0FF)
  | .ldMemVx _ => (0xF055, 0xF0FF)
  | .ldVxMem _ => (0xF065, 0xF0FF)

/-- The bits of the row's words that the decoder ignores (R56). -/
def Instr.ignoredBits (i : Instr) : Word :=
  if i.row.1 = 0x0000 ∨ i.row.1 = 0x000E then 0x0FF0
  else if i.row.1 = 0x5000 ∨ i.row.1 = 0x9000 then 0x000F
  else 0

/-- The 34 rows of the opcode map, `match` and `mask`, in the order of R55. -/
def opcodeRows : List (Word × Word) :=
  [(0x0000, 0xF00F), (0x000E, 0xF00F)] ++
  [(0x1000, 0xF000), (0x2000, 0xF000), (0x3000, 0xF000), (0x4000, 0xF000), (0x5000, 0xF000), (0x6000, 0xF000),
    (0x7000, 0xF000)] ++
  [(0x8000, 0xF00F), (0x8001, 0xF00F), (0x8002, 0xF00F), (0x8003, 0xF00F), (0x8004, 0xF00F), (0x8005, 0xF00F),
    (0x8006, 0xF00F), (0x8007, 0xF00F), (0x800E, 0xF00F)] ++
  [(0x9000, 0xF000), (0xA000, 0xF000), (0xB000, 0xF000), (0xC000, 0xF000), (0xD000, 0xF000)] ++
  [(0xE09E, 0xF0FF), (0xE0A1, 0xF0FF)] ++
  [(0xF007, 0xF0FF), (0xF00A, 0xF0FF), (0xF015, 0xF0FF), (0xF018, 0xF0FF), (0xF01E, 0xF0FF), (0xF029, 0xF0FF),
    (0xF033, 0xF0FF), (0xF055, 0xF0FF), (0xF065, 0xF0FF)]

/-- An instruction's bits as the opcode table numbers them, as the instruction word: the table's rows are one 16-bit
word wide, bit 0 its least significant bit, and every bit at or above `nbits` is 0. -/
def tableWord (nbits w : Nat) : Word := BitVec.ofNat 16 (w % 2 ^ nbits)

/-- The instruction the decoder reads from that word laid out as the hardware stores it, high byte first (R50). -/
def decodeTableWord (nbits w : Nat) : Option Instr :=
  match decodeBytes [highByte (tableWord nbits w), lowByte (tableWord nbits w)] with
  | .instr i => some i
  | .invalid _ => none

end Sys2Proof
end

