-- ==== Sys2Proof/Config.lean ====
section
/-! DEFINITION. What an implementation fixes (00_scope.md R5), and the free values: what the outside world answers
where nothing fixes it (40_step_cycle.md R80, 60_exceptions.md R170; log 1). -/

namespace Sys2Proof

/-- The parameter `JP_OFFSET_SRC`: the register whose value JP VF, NNN adds (R5, R88, decision D7). -/
inductive JpOffsetSrc where
  /-- `V[0xF]`, the default. -/
  | vF
  /-- `V[X]` with X the top nibble of NNN. -/
  | vX
deriving DecidableEq, Repr

/-- The two open parameters of the hardware (R5). No step changes them (log 4). -/
structure Config where
  /-- `JP_OFFSET_SRC`. -/
  jpOffsetSrc : JpOffsetSrc
  /-- `FONT`: the bytes of addresses 0..79 at reset (R22). -/
  font        : Vector Byte 80
deriving DecidableEq, Repr

/-- Free value: how many ticks the timer driver makes before activation `n`. "A model therefore allows any number of
ticks (zero included) between any two activations" (R170). -/
opaque Config.freeTicks : Nat → Nat

/-- Free value: the input `key_held` of activation `n`, "any 16-bit value" (R80). -/
opaque Config.freeKeyHeld : Nat → BitVec 16

/-- Free value: the input `key_event` of activation `n`, "absent, or any key 0..15" (R80). -/
opaque Config.freeKeyEvent : Nat → Option Key

/-- Free value: the input `rng_byte` of activation `n`, "any byte" (R80). -/
opaque Config.freeRngByte : Nat → Byte

end Sys2Proof
end

