-- ==== Sys2Proof/Machine/Defaults.lean ====
section
/-! DEFINITION. The stated defaults of the two parameters (00_scope.md R5) and the reset contents of memory that follow
from `FONT` (10_state.md R21, R22). -/

namespace Sys2Proof.Machine

/-- The default `FONT`, two digits a line, "top row first" (R22). PRESUMED: the spec itself marks the table "from general
knowledge, not in source" (G1, log 5). -/
def defaultFont : Vector Byte 80 :=
  #v[0xF0, 0x90, 0x90, 0x90, 0xF0, 0x20, 0x60, 0x20, 0x20, 0x70,
    0xF0, 0x10, 0xF0, 0x80, 0xF0, 0xF0, 0x10, 0xF0, 0x10, 0xF0,
    0x90, 0x90, 0xF0, 0x10, 0x10, 0xF0, 0x80, 0xF0, 0x10, 0xF0,
    0xF0, 0x80, 0xF0, 0x90, 0xF0, 0xF0, 0x10, 0x20, 0x40, 0x40,
    0xF0, 0x90, 0xF0, 0x90, 0xF0, 0xF0, 0x90, 0xF0, 0x10, 0xF0,
    0xF0, 0x90, 0xF0, 0x90, 0x90, 0xE0, 0x90, 0xE0, 0x90, 0xE0,
    0xF0, 0x80, 0x80, 0x80, 0xF0, 0xE0, 0x90, 0x90, 0x90, 0xE0,
    0xF0, 0x80, 0xF0, 0x80, 0xF0, 0xF0, 0x80, 0xF0, 0x80, 0x80]

/-- The defaults of R5: `JP_OFFSET_SRC = VF` (decision D7) and the table of R22. -/
def defaultConfig : Config := { jpOffsetSrc := .vF, font := defaultFont }

/-- What a byte of memory that nothing has written reads as: `FONT` at 0..79 and "every other byte of `mem` = 0"
(R21, decision D18, log 6). -/
def resetByte (font : Vector Byte 80) (a : Nat) : Byte := font[a]?.getD 0

end Sys2Proof.Machine
end

