-- ==== Sys2Proof/Machine/Memory.lean ====
section
/-! DEFINITION. Memory as the list of the bytes that differ from the reset contents, addresses rising (20_memory.md R30,
10_state.md R18, R21; log 6). Keys are effective addresses. -/

namespace Sys2Proof.Machine

/-- A sparse memory: a cell is an effective address and the byte it holds. -/
abbrev Memory := List Host.Cell

/-- The byte listed for an address. -/
def Memory.find : Memory → Nat → Option Byte
  | [], _ => none
  | (k, b) :: rest, a => if k = a then some b else Memory.find rest a

/-- The byte an address holds: the listed one, else the reset contents. -/
def Memory.read (font : Vector Byte 80) (m : Memory) (a : Nat) : Byte := (m.find a).getD (resetByte font a)

/-- List a byte for an address, in its place among rising addresses, in place of one listed before. -/
def Memory.insert : Memory → Nat → Byte → Memory
  | [], a, b => [(a, b)]
  | (k, c) :: rest, a, b =>
    if a < k then (a, b) :: (k, c) :: rest
    else if a = k then (a, b) :: rest
    else (k, c) :: Memory.insert rest a b

/-- List nothing for an address. -/
def Memory.erase (m : Memory) (a : Nat) : Memory := m.filter fun c => c.1 != a

/-- Store a byte; a byte equal to the reset contents is not listed, so that equal memories are equal lists. -/
def Memory.write (font : Vector Byte 80) (m : Memory) (a : Nat) (b : Byte) : Memory :=
  if b = resetByte font a then m.erase a else m.insert a b

/-- The canonical form: addresses rising, all in the space of 4096 bytes, and no cell equal to the reset contents. -/
abbrev Memory.wf (font : Vector Byte 80) (m : Memory) : Prop :=
  m.Pairwise (fun c d => c.1 < d.1) ∧ ∀ c ∈ m, c.1 < 4096 ∧ c.2 ≠ resetByte font c.1

/-- `ea = raw mod 4096` (R31, decision D2). -/
def effectiveAddress (raw : Nat) : Nat := raw % 4096

/-- Whether an access at a raw address is one that wraps, "When `raw >= 4096`" (R31). -/
def accessWraps (raw : Nat) : Bool := 4096 ≤ raw

end Sys2Proof.Machine
end

