-- ==== Sys2Proof/Machine/State.lean ====
section
/-! DEFINITION. Machine State (10_state.md), the outputs of an activation (40_step_cycle.md R71, R74, R75), the
environment's turns (R80; log 1) and the state after reset (10_state.md R21). -/

namespace Sys2Proof.Machine

/-- The four diagnostic flags of `diag[3:0]`, in the order of their bits (R75, 60_exceptions.md R160). -/
structure Diag where
  /-- Bit 0: the word matched no row. -/
  invalidInstruction : Bool
  /-- Bit 1: a memory access had a raw address of 4096 or more. -/
  addrWrap           : Bool
  /-- Bit 2: CALL with a full stack. -/
  stackOverflow      : Bool
  /-- Bit 3: RET with an empty stack. -/
  stackUnderflow     : Bool
deriving DecidableEq, Repr

/-- The outputs of one activation (00_scope.md R7). They are ports, not Machine State (R75); log 3. -/
structure Outputs where
  /-- `redraw` (R74). -/
  redraw        : Bool
  /-- `diag` (R75). -/
  diag          : Diag
  /-- `key_event_taken` (R142). -/
  keyEventTaken : Bool
  /-- `rng_taken` (R146). -/
  rngTaken      : Bool
deriving DecidableEq, Repr

/-- All outputs 0: what an activation begins with (R71 step 1). -/
def Outputs.cleared : Outputs :=
  { redraw := false
    diag := { invalidInstruction := false, addrWrap := false, stackOverflow := false, stackUnderflow := false }
    keyEventTaken := false
    rngTaken := false }

/-- The inputs of one activation (R80): each is free, and none need agree with another. -/
structure Inputs where
  /-- `key_held[15:0]`: bit k is 1 when logical key k is held. -/
  keyHeld  : BitVec 16
  /-- `key_event`: absent, or the key of the first press event since the last query. -/
  keyEvent : Option Key
  /-- `rng_byte[7:0]`. -/
  rngByte  : Byte
deriving DecidableEq, Repr

/-- What the outside world does for one activation: the ticks of the timer driver that come before it
(60_exceptions.md R170; log 2) and the inputs it answers during it (R80). -/
structure Turn where
  ticks  : Nat
  inputs : Inputs
deriving DecidableEq, Repr

/-- The whole state. The fields down to `mem` are Machine State, "nine fields" (10_state.md R19). -/
structure State where
  /-- `V[0x0]`..`V[0xF]` (R10). -/
  v      : Vector Byte 16
  /-- `program_counter` (R12). -/
  pc     : Word
  /-- `index_register` (R13). -/
  i      : Word
  /-- `call_stack` (R14). -/
  stack  : Vector Word 64
  /-- `stack_pointer`, the number of entries held, 0..64 (R15). -/
  sp     : Fin 65
  /-- `delay_timer` (R16). -/
  dt     : Byte
  /-- `sound_timer` (R16). -/
  st     : Byte
  /-- `frame_buffer`, `fb[row][col]`, row 0 at the top, column 0 at the left (R17). -/
  fb     : Vector (Vector Bool 64) 32
  /-- `memory` (R18), the bytes that differ from the reset contents. -/
  mem    : Memory
  /-- The outputs of the activation just made, or being made. -/
  out    : Outputs
  /-- The configuration: no step writes it (log 4). -/
  cfg    : Config
  /-- The model's own field: the coming turns of the environment that are fixed, the next one first (log 1). -/
  script : List Turn
  /-- The model's own field: how many activations have been made; the free values are applied to it (log 1). -/
  turn   : Nat
deriving DecidableEq, Repr

/-- Why a step stops with a fault: NO REASON EXISTS. The two events the spec calls faults, STACK_OVERFLOW and
STACK_UNDERFLOW, set a flag of `diag`, change no Machine State and leave a state that "has a next activation"
(60_exceptions.md R163, R164; 70_reset_and_hazards.md R188), so they are next states (log 7). -/
inductive Fault where
deriving DecidableEq, Repr

/-- Why the model refuses. -/
inductive Refusal where
  /-- Raised by an arm of `exec` whose instruction has no meaning yet; no arm raises it. Safe. -/
  | notModelled (mnemonic : String)
  /-- Raised by `boot` for a program that does not fit in 512..4095: "a model should refuse such a launch"
  (70_reset_and_hazards.md R181). No step raises it. Safe. -/
  | programTooLong
deriving DecidableEq, Repr

/-- What a meaning answers. -/
abbrev Result := Host.Outcome State Fault Refusal

/-- The state at creation under a configuration: "all fields zeroed except `program_counter` (set to 512)" and memory,
which is its reset contents, so nothing is listed (R21). No program is in it: the loader's `boot` places one (log 30). -/
def State.created (cfg : Config) : State :=
  { v := Vector.replicate 16 0
    pc := 512
    i := 0
    stack := Vector.replicate 64 0
    sp := 0
    dt := 0
    st := 0
    fb := Vector.replicate 32 (Vector.replicate 64 false)
    mem := []
    out := Outputs.cleared
    cfg := cfg
    script := []
    turn := 0 }

/-- The machine right after reset, under the stated defaults of the parameters (R5, R21). -/
def State.reset : State := State.created defaultConfig

end Sys2Proof.Machine
end

