-- ==== Sys2Proof/Machine/Ops.lean ====
section
/-! DEFINITION. The named operations over the state: registers, the program counter, memory (20_memory.md R32, R33), the
call stack, the frame buffer, the diagnostics and the environment's inputs. -/

namespace Sys2Proof.Machine

/-! Registers (10_state.md R10: every one read and written alike). -/

/-- `V[r]`. -/
def State.reg (s : State) (r : Reg) : Byte := s.v[r]

/-- `V[r] <- b`. -/
def State.setReg (s : State) (r : Reg) (b : Byte) : State := { s with v := s.v.set r.val b r.isLt }

/-- `I <- a`. -/
def State.setIndex (s : State) (a : Word) : State := { s with i := a }

/-- `DT <- b`. -/
def State.setDelay (s : State) (b : Byte) : State := { s with dt := b }

/-- `ST <- b`. -/
def State.setSound (s : State) (b : Byte) : State := { s with st := b }

/-! The program counter's final value (40_step_cycle.md R73; 16-bit wrap is decision D3). -/

/-- `next_pc <- target`: the target itself, with no further advance (70_reset_and_hazards.md R186). -/
def State.jump (s : State) (target : Word) : State := { s with pc := target }

/-- The default, `(pc0 + 2) mod 65536`. -/
def State.advance (s : State) : State := s.jump (s.pc + 2)

/-- The end of a skip instruction: `(pc0 + 4) mod 65536` when its condition holds, else the default. -/
def State.skipIf (s : State) (condition : Bool) : State := s.jump (if condition then s.pc + 4 else s.pc + 2)

/-! Diagnostics (60_exceptions.md R160). -/

/-- The causes of the four flags. -/
inductive Cause where
  | invalidInstruction
  | addrWrap
  | stackOverflow
  | stackUnderflow
deriving DecidableEq, Repr

/-- Set the flag of a cause: "every cause that occurs sets its bit" (R166). -/
def Diag.mark (d : Diag) : Cause → Diag
  | .invalidInstruction => { d with invalidInstruction := true }
  | .addrWrap => { d with addrWrap := true }
  | .stackOverflow => { d with stackOverflow := true }
  | .stackUnderflow => { d with stackUnderflow := true }

/-- `diag[3:0]` as the caller reads it: bit 0 INVALID_INSTRUCTION up to bit 3 STACK_UNDERFLOW (40_step_cycle.md R75). -/
def Diag.bits (d : Diag) : BitVec 4 :=
  BitVec.ofBool d.stackUnderflow ++ BitVec.ofBool d.stackOverflow ++ BitVec.ofBool d.addrWrap ++
    BitVec.ofBool d.invalidInstruction

/-- `raise <Flag>`: "sets the named bit of the `diag` output of this activation" (00_scope.md R8). -/
def State.raise (s : State) (c : Cause) : State := { s with out := { s.out with diag := s.out.diag.mark c } }

/-- `fault <Flag>`: "sets the bit and ends the activation with no change to Machine State" (R8, 60_exceptions.md R163).
This is all there is to taking an error on this hardware: no trap entry, no saved state, no handler (R168), and so no
return from one (R169). -/
def State.faultWith (s : State) (c : Cause) : Result := .next (s.raise c)

/-- `redraw <- 1` (46_display.md R131). -/
def State.requestRedraw (s : State) : State := { s with out := { s.out with redraw := true } }

/-- `key_event_taken <- 1` (47_input_timers_random.md R142). -/
def State.takeKeyEvent (s : State) : State := { s with out := { s.out with keyEventTaken := true } }

/-- `rng_taken <- 1` (47_input_timers_random.md R146). -/
def State.takeRngByte (s : State) : State := { s with out := { s.out with rngTaken := true } }

/-! Memory. -/

/-- `mem[raw mod 4096]`. -/
def State.byteAt (s : State) (raw : Nat) : Byte := s.mem.read s.cfg.font (effectiveAddress raw)

/-- What an access at a raw address does beside moving the byte: ADDR_WRAP when the raw address is 4096 or more
(R31, 60_exceptions.md R162). -/
def State.noteAccess (s : State) (raw : Nat) : State := if accessWraps raw then s.raise .addrWrap else s

/-- `MemRead(raw, 1)` (R32). -/
def State.memRead (s : State) (raw : Nat) : Byte × State := (s.byteAt raw, s.noteAccess raw)

/-- `mem[raw mod 4096] <- b`. -/
def State.storeByte (s : State) (raw : Nat) (b : Byte) : State :=
  { s with mem := s.mem.write s.cfg.font (effectiveAddress raw) b }

/-- `MemWrite(raw, 1, b)` (R33). -/
def State.memWrite (s : State) (raw : Nat) (b : Byte) : State := (s.storeByte raw b).noteAccess raw

/-! The call stack (10_state.md R14, R15). -/

/-- `stack[k]`; only `k < 64` is an entry. -/
def State.stackEntry (s : State) (k : Nat) : Word := s.stack[k]?.getD 0

/-- `stack[sp] <- a`, `sp <- sp + 1`; for a stack that is not full. -/
def State.push (s : State) (a : Word) : State :=
  { s with stack := s.stack.setIfInBounds s.sp.val a, sp := Fin.ofNat 65 (s.sp.val + 1) }

/-- `sp <- sp - 1`; the entry keeps its value (R14). For a stack that is not empty. -/
def State.pop (s : State) : State := { s with sp := Fin.ofNat 65 (s.sp.val - 1) }

/-- The most recent entry, `stack[sp - 1]`. -/
def State.topEntry (s : State) : Word := s.stackEntry (s.sp.val - 1)

/-! The frame buffer (10_state.md R17, 20_memory.md R42). -/

/-- A row of the frame buffer with every pixel off. -/
def blankRow : Vector Bool 64 := Vector.replicate 64 false

/-- `fb[row]`; only `row < 32` is a row. -/
def State.pixelRow (s : State) (row : Nat) : Vector Bool 64 := s.fb[row]?.getD blankRow

/-- `fb[row][col]`; only `row < 32` and `col < 64` are pixels. -/
def State.pixel (s : State) (row col : Nat) : Bool := (s.pixelRow row)[col]?.getD false

/-- `fb[row][col] <- fb[row][col] XOR 1`. -/
def State.togglePixel (s : State) (row col : Nat) : State :=
  { s with fb := s.fb.setIfInBounds row ((s.pixelRow row).setIfInBounds col (!s.pixel row col)) }

/-- Every pixel off. -/
def State.clearScreen (s : State) : State :=
  { s with fb := Vector.replicate 32 blankRow }

/-! The environment (40_step_cycle.md R80; log 1). -/

/-- The turn of the environment at the coming activation, or the one being made: the script's next, else the free
values. -/
def State.turnNow (s : State) : Turn :=
  match s.script with
  | t :: _ => t
  | [] =>
    { ticks := Config.freeTicks s.turn
      inputs :=
        { keyHeld := Config.freeKeyHeld s.turn
          keyEvent := Config.freeKeyEvent s.turn
          rngByte := Config.freeRngByte s.turn } }

/-- The inputs of this activation. -/
def State.inputs (s : State) : Inputs := s.turnNow.inputs

end Sys2Proof.Machine
end

