-- ==== Sys2Proof/Machine/Flags.lean ====
section
/-! DEFINITION. The flag computations (44_alu.md R115) and the order of the two register writes (40_step_cycle.md R78). -/

namespace Sys2Proof.Machine

/-- A flag as the byte it is in `V[0xF]`: "exactly 0 or 1" (10_state.md R11). -/
def flagByte (b : Bool) : Byte := if b then 1 else 0

/-- 8XY4: "1 if unsigned sum > 255 else 0" (R109). -/
def addFlag (vx vy : Byte) : Bool := 255 < vx.toNat + vy.toNat

/-- 8XY5: 1 exactly when the pre-op `V[X]` is strictly greater than the pre-op `V[Y]` (R110). -/
def subFlag (vx vy : Byte) : Bool := vy.toNat < vx.toNat

/-- 8XY7: 1 exactly when the pre-op `V[X]` is strictly less than the pre-op `V[Y]` (R112). -/
def subnFlag (vx vy : Byte) : Bool := vx.toNat < vy.toNat

/-- 8XY6: "bit 0 of the pre-shift value" (R111). -/
def shrFlag (vy : Byte) : Bool := vy.getLsbD 0

/-- 8XYE: "bit 7 of the pre-shift value" (R113). -/
def shlFlag (vy : Byte) : Bool := vy.getLsbD 7

/-- `V[X] <- result`, then `V[0xF] <- flag`: with X = 0xF the flag is what remains (R78, 44_alu.md R116, decision D10, log 23). -/
def State.setRegFlag (s : State) (x : Reg) (result : Byte) (flag : Bool) : State :=
  (s.setReg x result).setReg regF (flagByte flag)

end Sys2Proof.Machine
end

