-- ==== Sys2Proof/Machine/Alu.lean ====
section
/-! DEFINITION. The register-to-register ALU, class 0x8 (44_alu.md). Operands are the values before any write
(40_step_cycle.md R77); the first four write no flag (decision D20). -/

namespace Sys2Proof.Machine

/-- LD Vx, Vy (R105). -/
def execLdVxVy (x y : Reg) (s : State) : Result := .next (s.setReg x (s.reg y)).advance

/-- OR Vx, Vy (R106). -/
def execOrVxVy (x y : Reg) (s : State) : Result := .next (s.setReg x (s.reg x ||| s.reg y)).advance

/-- AND Vx, Vy (R107). -/
def execAndVxVy (x y : Reg) (s : State) : Result := .next (s.setReg x (s.reg x &&& s.reg y)).advance

/-- XOR Vx, Vy (R108). -/
def execXorVxVy (x y : Reg) (s : State) : Result := .next (s.setReg x (s.reg x ^^^ s.reg y)).advance

/-- ADD Vx, Vy (R109). -/
def execAddVxVy (x y : Reg) (s : State) : Result :=
  .next (s.setRegFlag x (s.reg x + s.reg y) (addFlag (s.reg x) (s.reg y))).advance

/-- SUB Vx, Vy (R110). -/
def execSubVxVy (x y : Reg) (s : State) : Result :=
  .next (s.setRegFlag x (s.reg x - s.reg y) (subFlag (s.reg x) (s.reg y))).advance

/-- SHR Vx, Vy: the value shifted is `V[Y]` (R111). -/
def execShrVxVy (x y : Reg) (s : State) : Result :=
  .next (s.setRegFlag x (s.reg y >>> 1) (shrFlag (s.reg y))).advance

/-- SUBN Vx, Vy (R112). -/
def execSubnVxVy (x y : Reg) (s : State) : Result :=
  .next (s.setRegFlag x (s.reg y - s.reg x) (subnFlag (s.reg x) (s.reg y))).advance

/-- SHL Vx, Vy: the value shifted is `V[Y]` (R113). -/
def execShlVxVy (x y : Reg) (s : State) : Result :=
  .next (s.setRegFlag x (s.reg y <<< 1) (shlFlag (s.reg y))).advance

end Sys2Proof.Machine
end

