-- ==== Sys2Proof/Machine/Operands.lean ====
section
/-! DEFINITION. The operand forms (30_encoding.md R53): immediates, zero-extended addresses, bytes at `I + k`, the offset
of JP VF, and the key a register names. A register operand is `State.reg`; a byte immediate is used as it is. -/

namespace Sys2Proof.Machine

/-- `zext_16(NNN)`: the 12-bit address in the 16-bit `pc` or `I` (R53). -/
def addressOperand (nnn : Nat) : Word := BitVec.ofNat 16 nnn

/-- The raw address of byte `k` of a data access: `I + k`, "the sum taken exactly" (20_memory.md R31). -/
def State.indexRaw (s : State) (k : Nat) : Nat := s.i.toNat + k

/-- The top nibble of NNN, the field X of a JP VF word (41_control_transfer.md R88). -/
def topNibble (nnn : Nat) : Reg := Fin.ofNat 16 (nnn / 256)

/-- The offset JP VF adds: `V[0xF]`, or `V[X]` under `JP_OFFSET_SRC = VX` (R88, decision D7). -/
def State.jumpOffset (s : State) (nnn : Nat) : Byte :=
  match s.cfg.jpOffsetSrc with
  | .vF => s.reg regF
  | .vX => s.reg (topNibble nnn)

/-- `zext_16(NNN) + zext_16(off)` (R88). -/
def State.offsetTarget (s : State) (nnn : Nat) : Word := addressOperand nnn + (s.jumpOffset nnn).setWidth 16

/-- `(I + zext_16(V[X])) mod 65536` (45_index_memory.md R121). -/
def State.indexPlus (s : State) (x : Reg) : Word := s.i + (s.reg x).setWidth 16

/-- `zext_16(V[X]) * 5`: the whole byte, not its low nibble (R122, decision D21). -/
def State.glyphAddress (s : State) (x : Reg) : Word := BitVec.ofNat 16 ((s.reg x).toNat * 5)

/-- `I` after FX55 and FX65: `(i0 + X + 1) mod 65536` (R124, R125, decision D3). -/
def State.indexAfter (s : State) (x : Reg) : Word := BitVec.ofNat 16 (s.i.toNat + x.val + 1)

/-- `(vx <= 15) and (key_held[vx] = 1)`: a value of 16 or more names no key (47_input_timers_random.md R140, decision
D12). -/
def State.keyPressed (s : State) (vx : Byte) : Bool := vx.toNat ≤ 15 && s.inputs.keyHeld.getLsbD vx.toNat

end Sys2Proof.Machine
end

