-- ==== Sys2Proof/Machine/Control.lean ====
section
/-! DEFINITION. Control transfer (41_control_transfer.md). -/

namespace Sys2Proof.Machine

/-- JP NNN (R85). -/
def execJp (nnn : Nat) (s : State) : Result := .next (s.jump (addressOperand nnn))

/-- CALL NNN: the address of the CALL itself is pushed (R86, decision D6); STACK_OVERFLOW when the stack is full
(60_exceptions.md R163, decision D5). -/
def execCall (nnn : Nat) (s : State) : Result :=
  if s.sp.val = 64 then s.faultWith .stackOverflow
  else .next ((s.push s.pc).jump (addressOperand nnn))

/-- RET: `pc <- (stack[sp - 1] + 2) mod 65536` (R87); STACK_UNDERFLOW when the stack is empty (60_exceptions.md R164,
decision D5). -/
def execRet (s : State) : Result :=
  if s.sp.val = 0 then s.faultWith .stackUnderflow
  else .next (s.pop.jump (s.topEntry + 2))

/-- JP VF, NNN: the sum itself, with no further advance (R88, decision D8). -/
def execJpVfNnn (nnn : Nat) (s : State) : Result := .next (s.jump (s.offsetTarget nnn))

end Sys2Proof.Machine
end

