-- ==== Sys2Proof/Machine/Devices.lean ====
section
/-! DEFINITION. Keypad wait, timers and random number (47_input_timers_random.md). -/

namespace Sys2Proof.Machine

/-- LD Vx, K: waits, pc and all else unchanged, while no key is held or no press event is there (R142, decision D13);
else the event's key goes to `V[X]` and the event is taken. -/
def execLdVxK (x : Reg) (s : State) : Result :=
  .next
    (if s.inputs.keyHeld = 0 then s
    else
      match s.inputs.keyEvent with
      | none => s
      | some key => ((s.setReg x (BitVec.ofNat 8 key.val)).takeKeyEvent).advance)

/-- LD Vx, DT (R143; the assignment of the encoding is decision D11). -/
def execLdVxDt (x : Reg) (s : State) : Result := .next (s.setReg x s.dt).advance

/-- LD DT, Vx (R144). -/
def execLdDtVx (x : Reg) (s : State) : Result := .next (s.setDelay (s.reg x)).advance

/-- LD ST, Vx (R145). -/
def execLdStVx (x : Reg) (s : State) : Result := .next (s.setSound (s.reg x)).advance

/-- RND Vx, NN: "consumes one ... byte from a source of randomness" (R146). -/
def execRndVxNn (x : Reg) (nn : Byte) (s : State) : Result :=
  .next ((s.setReg x (s.inputs.rngByte &&& nn)).takeRngByte).advance

end Sys2Proof.Machine
end

