-- ==== Sys2Proof/Machine/Display.lean ====
section
/-! DEFINITION. Clear and sprite draw (46_display.md). -/

namespace Sys2Proof.Machine

/-- CLS: `redraw` stays 0 and `V[0xF]` is not written (R130). -/
def execCls (s : State) : Result := .next s.clearScreen.advance

/-- Bit `7 - c` of a sprite byte: "bit 7 is the leftmost pixel" (R131). -/
def spriteBit (b : Byte) (c : Nat) : Bool := b.getLsbD (7 - c)

/-- The column of the sprite's left edge, `V[X] mod 64`: the wrap "applied once, at sprite start" (R131). -/
def State.originColumn (s : State) (x : Reg) : Nat := (s.reg x).toNat % 64

/-- The row of the sprite's top edge, `V[Y] mod 32` (R131). -/
def State.originRow (s : State) (y : Reg) : Nat := (s.reg y).toNat % 32

/-- How many of N sprite rows are drawn from row `y0`: "if the row index exceeds 31 the remaining rows are skipped". -/
def rowsDrawn (y0 n : Nat) : Nat := min n (32 - y0)

/-- How many bits of a sprite row are drawn from column `x0`: "if the column index exceeds 63 the remaining bits in that
row are skipped". -/
def columnsDrawn (x0 : Nat) : Nat := min 8 (64 - x0)

/-- One sprite bit at one pixel: where it is 1, the collision flag is set if the pixel is on, and the pixel is XORed. -/
def State.drawPixel (s : State) (row col : Nat) (bit : Bool) : State :=
  if bit then (if s.pixel row col then s.setReg regF (flagByte true) else s).togglePixel row col else s

/-- One sprite row: its bits from the left, as far as they are drawn. -/
def State.drawRow (s : State) (row x0 : Nat) (b : Byte) : State :=
  (List.range (columnsDrawn x0)).foldl (fun t c => t.drawPixel row (x0 + c) (spriteBit b c)) s

/-- Row `r` of the sprite: its byte is read at `i0 + r`, then drawn at row `y0 + r`. -/
def State.drawSpriteRow (s : State) (x0 y0 r : Nat) : State :=
  (s.memRead (s.indexRaw r)).2.drawRow (y0 + r) x0 (s.memRead (s.indexRaw r)).1

/-- The rows of the sprite from the top, as far as they are drawn; a row that is not drawn is not read (decision D26). -/
def State.drawSprite (s : State) (x0 y0 n : Nat) : State :=
  (List.range (rowsDrawn y0 n)).foldl (fun t r => t.drawSpriteRow x0 y0 r) s

/-- DRW Vx, Vy, N: the coordinates are read first (decision D9), then `V[0xF] <- 0`, then the rows, then `redraw <- 1`
(R131). -/
def execDrwVxVyN (x y : Reg) (n : Nat) (s : State) : Result :=
  .next (((s.setReg regF (flagByte false)).drawSprite (s.originColumn x) (s.originRow y) n).requestRedraw).advance

end Sys2Proof.Machine
end

