-- ==== Sys2Proof/Machine/Immediate.lean ====
section
/-! DEFINITION. Immediate load and add (43_load_add_immediate.md). -/

namespace Sys2Proof.Machine

/-- LD Vx, NN (R100). -/
def execLdVxNn (x : Reg) (nn : Byte) (s : State) : Result := .next (s.setReg x nn).advance

/-- ADD Vx, NN: modulo 256, and no flag (R101, decision D20). -/
def execAddVxNn (x : Reg) (nn : Byte) (s : State) : Result := .next (s.setReg x (s.reg x + nn)).advance

end Sys2Proof.Machine
end

