-- ==== Sys2Proof/Machine/Index.lean ====
section
/-! DEFINITION. The index register and the loads and stores (45_index_memory.md). -/

namespace Sys2Proof.Machine

/-- LD I, NNN (R120). -/
def execLdINnn (nnn : Nat) (s : State) : Result := .next (s.setIndex (addressOperand nnn)).advance

/-- ADD I, Vx: no flag and no diagnostic, whatever the sum (R121, decision D20). -/
def execAddIVx (x : Reg) (s : State) : Result := .next (s.setIndex (s.indexPlus x)).advance

/-- LD F, Vx (R122). -/
def execLdFVx (x : Reg) (s : State) : Result := .next (s.setIndex (s.glyphAddress x)).advance

/-- The three decimal digits of a byte, "hundreds first" (R123). -/
def hundredsDigit (vx : Byte) : Byte := BitVec.ofNat 8 (vx.toNat / 100)

def tensDigit (vx : Byte) : Byte := BitVec.ofNat 8 (vx.toNat / 10 % 10)

def onesDigit (vx : Byte) : Byte := BitVec.ofNat 8 (vx.toNat % 10)

/-- LD B, Vx: three bytes at `I`, `I + 1`, `I + 2`; `I` unchanged (R123). -/
def execLdBVx (x : Reg) (s : State) : Result :=
  .next (((s.memWrite (s.indexRaw 0) (hundredsDigit (s.reg x))).memWrite (s.indexRaw 1) (tensDigit (s.reg x))).memWrite
    (s.indexRaw 2) (onesDigit (s.reg x))).advance

/-- Byte `k` of a register store: `MemWrite(i0 + k, 1, V[k])` (R124). -/
def State.storeReg (s : State) (k : Nat) : State := s.memWrite (s.indexRaw k) (s.reg (Fin.ofNat 16 k))

/-- Byte `k` of a register load: `V[k] <- MemRead(i0 + k, 1)` (R125). -/
def State.loadReg (s : State) (k : Nat) : State :=
  (s.memRead (s.indexRaw k)).2.setReg (Fin.ofNat 16 k) (s.memRead (s.indexRaw k)).1

/-- LD [I], Vx: `V[0]`..`V[X]` ascending, then `I <- (i0 + X + 1) mod 65536` (R124). -/
def execLdMemVx (x : Reg) (s : State) : Result :=
  .next (((List.range (x.val + 1)).foldl State.storeReg s).setIndex (s.indexAfter x)).advance

/-- LD Vx, [I] (R125). -/
def execLdVxMem (x : Reg) (s : State) : Result :=
  .next (((List.range (x.val + 1)).foldl State.loadReg s).setIndex (s.indexAfter x)).advance

end Sys2Proof.Machine
end

