-- ==== Sys2Proof/Machine/Skip.lean ====
section
/-! DEFINITION. The conditional skips (42_conditional_skip.md; the key skips of 47_input_timers_random.md). -/

namespace Sys2Proof.Machine

/-- SE Vx, NN (R95). -/
def execSeVxNn (x : Reg) (nn : Byte) (s : State) : Result := .next (s.skipIf (s.reg x == nn))

/-- SNE Vx, NN (R96). -/
def execSneVxNn (x : Reg) (nn : Byte) (s : State) : Result := .next (s.skipIf (s.reg x != nn))

/-- SE Vx, Vy (R97). -/
def execSeVxVy (x y : Reg) (s : State) : Result := .next (s.skipIf (s.reg x == s.reg y))

/-- SNE Vx, Vy (R98). -/
def execSneVxVy (x y : Reg) (s : State) : Result := .next (s.skipIf (s.reg x != s.reg y))

/-- SKP Vx (R140). -/
def execSkpVx (x : Reg) (s : State) : Result := .next (s.skipIf (s.keyPressed (s.reg x)))

/-- SKNP Vx (R141). -/
def execSknpVx (x : Reg) (s : State) : Result := .next (s.skipIf (!s.keyPressed (s.reg x)))

end Sys2Proof.Machine
end

