-- ==== Sys2Proof/Machine/Cycle.lean ====
section
/-! DEFINITION. The parts of one activation (40_step_cycle.md R71), the timer driver's tick (60_exceptions.md R170), the
invalid instruction (R76), and where an instruction word lies in memory. -/

namespace Sys2Proof.Machine

/-! The timer driver (R170). -/

/-- One timer in one tick: "a timer at 0 stays at 0" (decision D24). -/
def tickTimer (t : Byte) : Byte := if 0 < t.toNat then t - 1 else t

/-- The tick: both timers, and nothing else. -/
def State.tick (s : State) : State := { s with dt := tickTimer s.dt, st := tickTimer s.st }

/-- One timer in `n` ticks. -/
def tickTimes : Nat → Byte → Byte
  | 0, t => t
  | n + 1, t => tickTimes n (tickTimer t)

/-- `n` ticks between two activations, both timers at once; that they are `n` single ticks one after another is stated by
`Obligations.TicksLowerBothTimersTowardZero`. -/
def State.ticks (s : State) (n : Nat) : State := { s with dt := tickTimes n s.dt, st := tickTimes n s.st }

/-! The steps of R71. -/

/-- The ticks of this turn, then step (1): the outputs cleared. -/
def State.begin (s : State) : State := { s.ticks s.turnNow.ticks with out := Outputs.cleared }

/-- Step (2), `MemRead(pc, 2)`: raw addresses `pc` and `pc + 1`, the first byte high (R72). -/
def State.fetch (s : State) : Word × State :=
  let first := s.memRead s.pc.toNat
  let second := first.2.memRead (s.pc.toNat + 1)
  (wordOfBytes first.1 second.1, second.2)

/-- INVALID: `raise INVALID_INSTRUCTION`, the default advance, nothing else (R76). -/
def execInvalid (s : State) : Result := .next (s.raise .invalidInstruction).advance

/-- Steps (3) and (4): decode the word and perform the rule of what it is (R71). -/
def runWord (w : Word) (s : State) : Result :=
  match decodeWord w with
  | .instr i => exec i s
  | .invalid _ => execInvalid s

/-- The end of the turn: the environment's next turn comes up (log 1). -/
def State.endTurn (s : State) : State := { s with script := s.script.tail, turn := s.turn + 1 }

/-- What follows the rule of the instruction. -/
def finishTurn : Result → Result
  | .next t => .next t.endTurn
  | .fault r => .fault r
  | .refused r => .refused r

/-! Where the next instruction is fetched from. -/

/-- An instruction word stored at `pc` and `pc + 1`, first byte high (R50, R72). -/
def State.placeWord (s : State) (w : Word) : State :=
  (s.storeByte s.pc.toNat (highByte w)).storeByte (s.pc.toNat + 1) (lowByte w)

end Sys2Proof.Machine
end

