-- ==== Sys2Proof/Machine/Step.lean ====
section
/-! DEFINITION. One step: the ticks of the turn and one activation of `execute_one` (40_step_cycle.md R70, R71; log 2). -/

namespace Sys2Proof.Machine

/-- `execute_one`: clear the outputs, fetch, decode, execute; the instruction's rule writes `pc` (R71). -/
def step (s : State) : Host.Outcome State Fault Refusal :=
  let fetched := s.begin.fetch
  finishTurn (runWord fetched.1 fetched.2)

/-- The state with an instruction, numbered as the opcode table numbers its bits, stored where `step` fetches: at the
effective addresses of `pc` and `pc + 1`. It stands for the loader's writes (log 30). -/
def State.withFetchWord (s : State) (nbits w : Nat) : State := s.placeWord (tableWord nbits w)

end Sys2Proof.Machine
end

