-- ==== Sys2Proof/Machine/Loader.lean ====
section
/-! DEFINITION. The loader's side of the interface: creation with a program (10_state.md R21, 70_reset_and_hazards.md R181,
R182). -/

namespace Sys2Proof.Machine

/-- Where the loader puts the first program byte: `PROGRAM_BASE` (00_scope.md R5). -/
def programBase : Nat := 512

/-- The room from there to the end of memory. -/
def programRoom : Nat := 3584

/-- Bytes written at rising addresses. -/
def State.loadBytes : State → Nat → List Byte → State
  | s, _, [] => s
  | s, a, b :: rest => (s.storeByte a b).loadBytes (a + 1) rest

/-- Creation under a configuration with a program: zero, `pc` = 512, `FONT` at 0..79, the program from 512 (R181). "A
program longer than 3584 bytes does not fit ... a model should refuse such a launch." -/
def boot (cfg : Config) (program : List Byte) : Result :=
  if program.length ≤ programRoom then .next ((State.created cfg).loadBytes programBase program)
  else .refused .programTooLong

end Sys2Proof.Machine
end

