-- ==== Sys2Proof/Safety.lean ====
section
/-! DEFINITION. The terms in which claims about runs are made: what Machine State is, when a program is finished
(70_reset_and_hazards.md R188), when a step was clean, and the invariant every step keeps (10_state.md R23). -/

namespace Sys2Proof.Machine

/-- Two states with the same Machine State, all nine fields (10_state.md R19). -/
def SameMachineState (s t : State) : Prop :=
  t.v = s.v ∧ t.pc = s.pc ∧ t.i = s.i ∧ t.stack = s.stack ∧ t.sp = s.sp ∧ t.dt = s.dt ∧ t.st = s.st ∧ t.fb = s.fb ∧
    t.mem = s.mem

/-- "`pc` holds the address `a` of a word `1NNN` with `NNN = a` (a jump to itself), with `a <= 4094`" (R188, decision
D30). -/
def Finished (s : State) : Prop := s.pc.toNat ≤ 4094 ∧ decodeWord s.fetch.1 = .instr (.jp s.pc.toNat)

/-- The last activation was one of the two faults (60_exceptions.md R163): "the flag as a fault bit that refutes any claim
of safe termination". -/
def Faulted (s : State) : Prop := s.out.diag.stackOverflow = true ∨ s.out.diag.stackUnderflow = true

/-- The last activation raised no flag. -/
def Clean (s : State) : Prop := s.out.diag = Outputs.cleared.diag

/-- The invariant: memory keeps its canonical form, so it has no byte outside the 4096 addresses (R23, R33). The other
ranges of R23 hold by the types of the fields. -/
def Inv (s : State) : Prop := Memory.wf s.cfg.font s.mem

end Sys2Proof.Machine
end

