-- ==== Sys2Proof/Certificates/Slice0/Obligations.lean ====
section
/-! DEFINITION. The statements for the provers. Arithmetic is written as the spec writes it, exact in the naturals and then
reduced (00_scope.md R8); a frame is written as the parts of the state that may change. Where a statement rests on a
decision D<n>, which the spec marks as its own choice, its docstring says so and names the log entry. -/

namespace Sys2Proof.Machine

/-- Whether the flag of a cause is set. -/
def Diag.flag (d : Diag) : Cause → Bool
  | .invalidInstruction => d.invalidInstruction
  | .addrWrap => d.addrWrap
  | .stackOverflow => d.stackOverflow
  | .stackUnderflow => d.stackUnderflow

/-- A part of the state an instruction may change: a byte by its effective address, a stack entry by its number, each
output on its own. -/
inductive Part where
  | reg (r : Reg)
  | pc
  | index
  | entry (k : Nat)
  | sp
  | delay
  | sound
  | screen
  | byte (ea : Nat)
  | redraw
  | flag (c : Cause)
  | keyEventTaken
  | rngTaken
deriving DecidableEq, Repr

/-- A part reads in `t` as it reads in `s`, by the model's read of one: a byte at every raw address that has the effective
address. -/
def Part.Same (s t : State) : Part → Prop
  | .reg r => t.reg r = s.reg r
  | .pc => t.pc = s.pc
  | .index => t.i = s.i
  | .entry k => t.stackEntry k = s.stackEntry k
  | .sp => t.sp = s.sp
  | .delay => t.dt = s.dt
  | .sound => t.st = s.st
  | .screen => ∀ row col, t.pixel row col = s.pixel row col
  | .byte ea => ∀ a, effectiveAddress a = ea → t.byteAt a = s.byteAt a
  | .redraw => t.out.redraw = s.out.redraw
  | .flag c => t.out.diag.flag c = s.out.diag.flag c
  | .keyEventTaken => t.out.keyEventTaken = s.out.keyEventTaken
  | .rngTaken => t.out.rngTaken = s.out.rngTaken

/-- All outputs of an activation (00_scope.md R7). -/
def allOutputs : List Part :=
  [.redraw, .flag .invalidInstruction, .flag .addrWrap, .flag .stackOverflow, .flag .stackUnderflow, .keyEventTaken,
    .rngTaken]

/-- The `n` bytes at `I` and up, by their effective addresses (20_memory.md R31). -/
def bytesAtIndex (s : State) (n : Nat) : List Part :=
  (List.range n).map fun k => .byte (effectiveAddress (s.indexRaw k))

/-- `V[0]`..`V[X]`. -/
def regsUpTo (x : Reg) : List Part := (List.range (x.val + 1)).map fun k => .reg (Fin.ofNat 16 k)

/-- The frame: every part but the named ones is as before, and so are the configuration and the environment. -/
def KeepsAllBut (changed : List Part) (s t : State) : Prop :=
  (∀ p, p ∉ changed → p.Same s t) ∧ t.cfg = s.cfg ∧ t.script = s.script ∧ t.turn = s.turn

/-- The words of an opcode row, `w AND mask = match`, decode to the instruction with the fields of the word (R55). -/
def RowDecodes (pattern mask : Word) (f : Word → Instr) : Prop :=
  ∀ w : Word, w &&& mask = pattern → decodeWord w = .instr (f w)

/-- LD Vx, K waits: no key is held, or no press event is there (R142, decision D13). -/
abbrev Waits (s : State) : Prop := s.inputs.keyHeld = 0 ∨ s.inputs.keyEvent = none

/-- The parts an instruction may change at a state: the write column of the table of 10_state.md R24, computed as the
instruction computes it, `pc` for all, and of the outputs those the instruction's rule names. A faulting CALL or RET
changes no Machine State (60_exceptions.md R163, R164), and neither does a waiting LD Vx, K. -/
def writeSet (s : State) : Instr → List Part
  | .cls => [.pc, .screen]
  | .ret => if s.sp.val = 0 then [.flag .stackUnderflow] else [.pc, .sp]
  | .jp _ => [.pc]
  | .call _ => if s.sp.val = 64 then [.flag .stackOverflow] else [.pc, .entry s.sp.val, .sp]
  | .seVxNn _ _ => [.pc]
  | .sneVxNn _ _ => [.pc]
  | .seVxVy _ _ => [.pc]
  | .ldVxNn x _ => [.pc, .reg x]
  | .addVxNn x _ => [.pc, .reg x]
  | .ldVxVy x _ => [.pc, .reg x]
  | .orVxVy x _ => [.pc, .reg x]
  | .andVxVy x _ => [.pc, .reg x]
  | .xorVxVy x _ => [.pc, .reg x]
  | .addVxVy x _ => [.pc, .reg x, .reg regF]
  | .subVxVy x _ => [.pc, .reg x, .reg regF]
  | .shrVxVy x _ => [.pc, .reg x, .reg regF]
  | .subnVxVy x _ => [.pc, .reg x, .reg regF]
  | .shlVxVy x _ => [.pc, .reg x, .reg regF]
  | .sneVxVy _ _ => [.pc]
  | .ldINnn _ => [.pc, .index]
  | .jpVfNnn _ => [.pc]
  | .rndVxNn x _ => [.pc, .reg x, .rngTaken]
  | .drwVxVyN _ _ _ => [.pc, .reg regF, .screen, .redraw, .flag .addrWrap]
  | .skpVx _ => [.pc]
  | .sknpVx _ => [.pc]
  | .ldVxDt x => [.pc, .reg x]
  | .ldVxK x => if Waits s then [] else [.pc, .reg x, .keyEventTaken]
  | .ldDtVx _ => [.pc, .delay]
  | .ldStVx _ => [.pc, .sound]
  | .addIVx _ => [.pc, .index]
  | .ldFVx _ => [.pc, .index]
  | .ldBVx _ => [.pc, .flag .addrWrap] ++ bytesAtIndex s 3
  | .ldMemVx x => [.pc, .index, .flag .addrWrap] ++ bytesAtIndex s (x.val + 1)
  | .ldVxMem x => [.pc, .index, .flag .addrWrap] ++ regsUpTo x

/-- `(pc0 + 2) mod 65536`. -/
def nextWordAddress (s : State) : Nat := (s.pc.toNat + 2) % 65536

/-- `pc0 + 2` where that needs no wrap; that `pc` wraps at 65536 is decision D3, log 15, and is stated by
`Obligations.FinalPcOfEveryInstruction`. -/
def Advances (s t : State) : Prop := s.pc.toNat + 2 < 65536 → t.pc.toNat = s.pc.toNat + 2

/-- `(pc0 + 4) mod 65536`. -/
def skipAddress (s : State) : Nat := (s.pc.toNat + 4) % 65536

/-- "the key whose value equals register[X] is pressed": there is such a key, and its bit of `key_held` is 1 (R140). -/
abbrev Holds (s : State) (vx : Byte) : Prop := ∃ k : Key, k.val = vx.toNat ∧ s.inputs.keyHeld.getLsbD k.val = true

/-- The final value of `pc` of every instruction, as 40_step_cycle.md R73 gives it, faults and waits included. -/
def finalPc (s : State) : Instr → Nat
  | .seVxNn x nn => if s.reg x = nn then skipAddress s else nextWordAddress s
  | .sneVxNn x nn => if s.reg x ≠ nn then skipAddress s else nextWordAddress s
  | .seVxVy x y => if s.reg x = s.reg y then skipAddress s else nextWordAddress s
  | .sneVxVy x y => if s.reg x ≠ s.reg y then skipAddress s else nextWordAddress s
  | .skpVx x => if Holds s (s.reg x) then skipAddress s else nextWordAddress s
  | .sknpVx x => if ¬Holds s (s.reg x) then skipAddress s else nextWordAddress s
  | .jp nnn => nnn
  | .call nnn => if s.sp.val = 64 then s.pc.toNat else nnn
  | .ret => if s.sp.val = 0 then s.pc.toNat else ((s.stackEntry (s.sp.val - 1)).toNat + 2) % 65536
  | .jpVfNnn nnn => (s.jumpOffset nnn).toNat + nnn
  | .ldVxK _ => if Waits s then s.pc.toNat else nextWordAddress s
  | .cls | .ldVxNn _ _ | .addVxNn _ _ | .ldVxVy _ _ | .orVxVy _ _ | .andVxVy _ _ | .xorVxVy _ _ | .addVxVy _ _
  | .subVxVy _ _ | .shrVxVy _ _ | .subnVxVy _ _ | .shlVxVy _ _ | .ldINnn _ | .rndVxNn _ _ | .drwVxVyN _ _ _ | .ldVxDt _
  | .ldDtVx _ | .ldStVx _ | .addIVx _ | .ldFVx _ | .ldBVx _ | .ldMemVx _ | .ldVxMem _ => nextWordAddress s

/-- The parts of two environments' inputs that an instruction reads (R80). -/
def ReadsAlike (a b : Inputs) : Instr → Prop
  | .skpVx _ => a.keyHeld = b.keyHeld
  | .sknpVx _ => a.keyHeld = b.keyHeld
  | .ldVxK _ => a.keyHeld = b.keyHeld ∧ a.keyEvent = b.keyEvent
  | .rndVxNn _ _ => a.rngByte = b.rngByte
  | .cls | .ret | .jp _ | .call _ | .seVxNn _ _ | .sneVxNn _ _ | .seVxVy _ _ | .ldVxNn _ _ | .addVxNn _ _ | .ldVxVy _ _
  | .orVxVy _ _ | .andVxVy _ _ | .xorVxVy _ _ | .addVxVy _ _ | .subVxVy _ _ | .shrVxVy _ _ | .subnVxVy _ _ | .shlVxVy _ _
  | .sneVxVy _ _ | .ldINnn _ | .jpVfNnn _ | .drwVxVyN _ _ _ | .ldVxDt _ | .ldDtVx _ | .ldStVx _ | .addIVx _ | .ldFVx _
  | .ldBVx _ | .ldMemVx _ | .ldVxMem _ => True

/-- The state with the environment of another: its script and its count of activations. -/
def State.withEnvironment (s : State) (script : List Turn) (turn : Nat) : State :=
  { s with script := script, turn := turn }

/-- How many bytes at `I` and up an instruction reads or writes; a clipped sprite row is not read (R36, R131). -/
def dataBytes (s : State) : Instr → Nat
  | .ldBVx _ => 3
  | .ldMemVx x => x.val + 1
  | .ldVxMem x => x.val + 1
  | .drwVxVyN _ y n => min n (32 - (s.reg y).toNat % 32)
  | .cls | .ret | .jp _ | .call _ | .seVxNn _ _ | .sneVxNn _ _ | .seVxVy _ _ | .ldVxNn _ _ | .addVxNn _ _ | .ldVxVy _ _
  | .orVxVy _ _ | .andVxVy _ _ | .xorVxVy _ _ | .addVxVy _ _ | .subVxVy _ _ | .shrVxVy _ _ | .subnVxVy _ _ | .shlVxVy _ _
  | .sneVxVy _ _ | .ldINnn _ | .jpVfNnn _ | .rndVxNn _ _ | .skpVx _ | .sknpVx _ | .ldVxDt _ | .ldVxK _ | .ldDtVx _
  | .ldStVx _ | .addIVx _ | .ldFVx _ => 0

/-- The word the coming activation fetches, decoded. -/
def State.coming (s : State) : Decoded := decodeWord s.begin.fetch.1

/-- The sprite of `DXYN` has a 1 bit that is drawn at a pixel: row `r`, bit `7 - c` of `mem[I + r]`, with
`row = V[Y] mod 32 + r` and `col = V[X] mod 64 + c` inside the grid (R131). -/
abbrev DrawnAt (s : State) (x y : Reg) (n row col : Nat) : Prop :=
  row < 32 ∧ col < 64 ∧ ∃ r, r < n ∧ ∃ c, c < 8 ∧ row = (s.reg y).toNat % 32 + r ∧ col = (s.reg x).toNat % 64 + c ∧
    (s.byteAt (s.indexRaw r)).getLsbD (7 - c) = true

end Sys2Proof.Machine

open Sys2Proof Sys2Proof.Machine

/-! Encoding. -/

/-- Decoding the word of a well-formed instruction gives the instruction back, every operand at every value its encoding
admits (30_encoding.md sections 3, 6 and 7). -/
def Obligations.DecodeOfEncodeIsTheInstruction : Prop :=
  ∀ i : Instr, i.wellFormed = true → decodeWord (encode i) = .instr i ∧ decodeBytes (encodeBytes i) = .instr i

/-- What a word decodes to is well formed, and encoding it gives the word back but for the bits the decoder ignores
(30_encoding.md section 4; that they are ignored is decision D16, log 9). -/
def Obligations.EncodeOfDecodedWordRestoresAllButIgnoredBits : Prop :=
  ∀ (w : Word) (i : Instr), decodeWord w = .instr i →
    i.wellFormed = true ∧ encode i &&& ~~~i.ignoredBits = w &&& ~~~i.ignoredBits

/-- R55: the complete opcode map. A word selects a row exactly when `w AND mask = match`; it then decodes to the row's
instruction with the fields of the word, and what decodes to a row's instruction is a word of that row. -/
def Obligations.OpcodeMapIsComplete : Prop :=
  (RowDecodes 0x0000 0xF00F (fun _ => .cls) ∧ RowDecodes 0x000E 0xF00F (fun _ => .ret) ∧
    RowDecodes 0x1000 0xF000 (fun w => .jp (fieldNnn w)) ∧ RowDecodes 0x2000 0xF000 (fun w => .call (fieldNnn w)) ∧
    RowDecodes 0x3000 0xF000 (fun w => .seVxNn (fieldX w) (fieldNn w)) ∧
    RowDecodes 0x4000 0xF000 (fun w => .sneVxNn (fieldX w) (fieldNn w)) ∧
    RowDecodes 0x5000 0xF000 (fun w => .seVxVy (fieldX w) (fieldY w)) ∧
    RowDecodes 0x6000 0xF000 (fun w => .ldVxNn (fieldX w) (fieldNn w)) ∧
    RowDecodes 0x7000 0xF000 (fun w => .addVxNn (fieldX w) (fieldNn w))) ∧
  (RowDecodes 0x8000 0xF00F (fun w => .ldVxVy (fieldX w) (fieldY w)) ∧
    RowDecodes 0x8001 0xF00F (fun w => .orVxVy (fieldX w) (fieldY w)) ∧
    RowDecodes 0x8002 0xF00F (fun w => .andVxVy (fieldX w) (fieldY w)) ∧
    RowDecodes 0x8003 0xF00F (fun w => .xorVxVy (fieldX w) (fieldY w)) ∧
    RowDecodes 0x8004 0xF00F (fun w => .addVxVy (fieldX w) (fieldY w)) ∧
    RowDecodes 0x8005 0xF00F (fun w => .subVxVy (fieldX w) (fieldY w)) ∧
    RowDecodes 0x8006 0xF00F (fun w => .shrVxVy (fieldX w) (fieldY w)) ∧
    RowDecodes 0x8007 0xF00F (fun w => .subnVxVy (fieldX w) (fieldY w)) ∧
    RowDecodes 0x800E 0xF00F (fun w => .shlVxVy (fieldX w) (fieldY w))) ∧
  (RowDecodes 0x9000 0xF000 (fun w => .sneVxVy (fieldX w) (fieldY w)) ∧
    RowDecodes 0xA000 0xF000 (fun w => .ldINnn (fieldNnn w)) ∧ RowDecodes 0xB000 0xF000 (fun w => .jpVfNnn (fieldNnn w)) ∧
    RowDecodes 0xC000 0xF000 (fun w => .rndVxNn (fieldX w) (fieldNn w)) ∧
    RowDecodes 0xD000 0xF000 (fun w => .drwVxVyN (fieldX w) (fieldY w) (fieldN w)) ∧
    RowDecodes 0xE09E 0xF0FF (fun w => .skpVx (fieldX w)) ∧ RowDecodes 0xE0A1 0xF0FF (fun w => .sknpVx (fieldX w))) ∧
  (RowDecodes 0xF007 0xF0FF (fun w => .ldVxDt (fieldX w)) ∧ RowDecodes 0xF00A 0xF0FF (fun w => .ldVxK (fieldX w)) ∧
    RowDecodes 0xF015 0xF0FF (fun w => .ldDtVx (fieldX w)) ∧ RowDecodes 0xF018 0xF0FF (fun w => .ldStVx (fieldX w)) ∧
    RowDecodes 0xF01E 0xF0FF (fun w => .addIVx (fieldX w)) ∧ RowDecodes 0xF029 0xF0FF (fun w => .ldFVx (fieldX w)) ∧
    RowDecodes 0xF033 0xF0FF (fun w => .ldBVx (fieldX w)) ∧ RowDecodes 0xF055 0xF0FF (fun w => .ldMemVx (fieldX w)) ∧
    RowDecodes 0xF065 0xF0FF (fun w => .ldVxMem (fieldX w))) ∧
  ∀ (w : Word) (i : Instr), decodeWord w = .instr i → w &&& i.row.2 = i.row.1

/-- The patterns are pairwise disjoint, and the words of no row, which are the invalid ones, are exactly those of the four
groups (30_encoding.md sections 3 and 5, without the counts). -/
def Obligations.InvalidWordsAreExactlyThoseOfNoRow : Prop :=
  ∀ w : Word,
    (opcodeRows.Pairwise fun a b => ¬(w &&& a.2 = a.1 ∧ w &&& b.2 = b.1)) ∧
    ((∃ r, decodeWord w = .invalid r) ↔ ∀ row ∈ opcodeRows, w &&& row.2 ≠ row.1) ∧
    ((∃ r, decodeWord w = .invalid r) ↔
      (fieldClass w = 0x0 ∧ fieldN w ≠ 0x0 ∧ fieldN w ≠ 0xE) ∨
      (fieldClass w = 0x8 ∧ 0x8 ≤ fieldN w ∧ fieldN w ≠ 0xE) ∨
      (fieldClass w = 0xE ∧ fieldNn w ≠ 0x9E ∧ fieldNn w ≠ 0xA1) ∨
      (fieldClass w = 0xF ∧ fieldNn w ∉ [0x07, 0x0A, 0x15, 0x18, 0x1E, 0x29, 0x33, 0x55, 0x65]))

/-- The words the source itself shows (30_encoding.md section 8), the canonical words of CLS and RET (section 7; they are
general knowledge and marked PRESUMED, log 9), and the invalid word of the example of 40_step_cycle.md section 5, in class
0x8 (30_encoding.md section 5). -/
def Obligations.WordsShownByTheSourceDecodeRight : Prop :=
  decodeBytes [0x60, 0x05] = .instr (.ldVxNn 0x0 5) ∧ decodeBytes [0x61, 0x03] = .instr (.ldVxNn 0x1 3) ∧
    decodeBytes [0x80, 0x14] = .instr (.addVxVy 0x0 0x1) ∧ decodeBytes [0xA2, 0x2A] = .instr (.ldINnn 0x22A) ∧
    decodeBytes [0xD0, 0x05] = .instr (.drwVxVyN 0x0 0x0 5) ∧ decodeBytes [0x00, 0xE0] = .instr .cls ∧
    decodeBytes [0x00, 0xEE] = .instr .ret ∧ decodeBytes [0x80, 0x08] = .invalid (.class8 8)

/-! The activation. -/

/-- R72: the fetched word is `{mem[pc mod 4096], mem[(pc + 1) mod 4096]}`, first byte high; the fetch sets ADDR_WRAP
exactly when `pc >= 4095`, and has no other effect; the word is fetched once, before the instruction executes, so the
instruction's own stores cannot change it. -/
def Obligations.FetchReadsTwoBytesHighFirst : Prop :=
  ∀ s : State,
    s.fetch.1.toNat = 256 * (s.byteAt (s.pc.toNat % 4096)).toNat + (s.byteAt ((s.pc.toNat + 1) % 4096)).toNat ∧
    KeepsAllBut [.flag .addrWrap] s s.fetch.2 ∧
    s.fetch.2.out.diag.addrWrap = (s.out.diag.addrWrap || decide (4095 ≤ s.pc.toNat)) ∧
    s.fetch.2.out = { s.out with diag := { s.out.diag with addrWrap := s.fetch.2.out.diag.addrWrap } } ∧
    step s = finishTurn (runWord s.begin.fetch.1 s.begin.fetch.2)

/-- What comes before the fetch: the ticks of this turn, then all outputs 0; nothing else changes (R71 step 1; that the
ticks of a turn come before its activation is the model's choice, log 2). -/
def Obligations.ActivationBeginsWithClearedOutputs : Prop :=
  ∀ s : State,
    KeepsAllBut ([.delay, .sound] ++ allOutputs) s s.begin ∧ s.begin.out = Outputs.cleared ∧
    s.begin.dt.toNat = s.dt.toNat - s.turnNow.ticks ∧ s.begin.st.toNat = s.st.toNat - s.turnNow.ticks

/-- A step runs the decoded instruction: when the fetched word decodes to `i` and exec answers `t` on the state after the
fetch, the step answers `t` with the environment's turn ended; when the word is invalid, the same with the invalid
instruction's rule (40_step_cycle.md section 2; the environment's turns are the model's, log 1). -/
def Obligations.StepRunsTheDecodedInstruction : Prop :=
  ∀ s : State,
    (∀ i, s.coming = .instr i → ∀ t, exec i s.begin.fetch.2 = .next t → step s = .next t.endTurn) ∧
    (∀ r, s.coming = .invalid r → ∀ t, execInvalid s.begin.fetch.2 = .next t → step s = .next t.endTurn) ∧
    ∀ t : State, (∀ p, Part.Same t t.endTurn p) ∧ t.endTurn.cfg = t.cfg ∧ t.endTurn.script = t.script.tail ∧
      t.endTurn.turn = t.turn + 1

/-- An instruction word stored by `withFetchWord` is the one the next step fetches, and nothing but memory changes; every
byte outside the two of the fetch reads as before (log 30). -/
def Obligations.StoredWordIsTheOneFetched : Prop :=
  ∀ (s : State) (w : Word),
    (s.withFetchWord 16 w.toNat).begin.fetch.1 = w ∧
    KeepsAllBut [.byte (effectiveAddress s.pc.toNat), .byte (effectiveAddress (s.pc.toNat + 1))] s
      (s.withFetchWord 16 w.toNat) ∧
    ∀ a, a % 4096 ≠ s.pc.toNat % 4096 → a % 4096 ≠ (s.pc.toNat + 1) % 4096 →
      (s.withFetchWord 16 w.toNat).byteAt a = s.byteAt a

/-- R76: a word matched by no row advances `pc` by 2 modulo 65536 and raises INVALID_INSTRUCTION; "nothing else is
written"; `redraw` is 0, no key and no random byte is consumed, and ADDR_WRAP is set too if the fetch wrapped. -/
def Obligations.InvalidWordOnlyAdvances : Prop :=
  ∀ (w : Word) (s : State), (∀ row ∈ opcodeRows, w &&& row.2 ≠ row.1) →
    (∃ t, runWord w s = .next t ∧ t.pc.toNat = nextWordAddress s ∧ KeepsAllBut [.pc, .flag .invalidInstruction] s t ∧
      t.out = { s.out with diag := { s.out.diag with invalidInstruction := true } }) ∧
    (s.begin.fetch.1 = w → ∃ t, step s = .next t ∧ t.pc.toNat = nextWordAddress s ∧
      t.out = { Outputs.cleared with diag := { Outputs.cleared.diag with
        invalidInstruction := true, addrWrap := decide (4095 ≤ s.pc.toNat) } })

/-- Every state has a next activation: no step stops (40_step_cycle.md section 6, 70_reset_and_hazards.md section 6). -/
def Obligations.EveryStateHasANextActivation : Prop :=
  ∀ s : State, ∃ t, step s = .next t

/-- `redraw` is 1 after a step exactly when the instruction was the sprite draw (40_step_cycle.md section 4; the 0 of all
others is decision D27, log 27). -/
def Obligations.RedrawExactlyForSpriteDraw : Prop :=
  ∀ s t : State, step s = .next t → (t.out.redraw = true ↔ ∃ x y n, s.coming = .instr (.drwVxVyN x y n))

/-- `key_event_taken` and `rng_taken` are 1 after a step exactly when LD Vx, K took an event and when RND ran
(47_input_timers_random.md sections 1 and 3; decisions D13, D14 and D15, log 10, log 11 and log 12). -/
def Obligations.TakenOutputsExactlyForTheirInstructions : Prop :=
  ∀ s t : State, step s = .next t →
    (t.out.keyEventTaken = true ↔ (∃ x, s.coming = .instr (.ldVxK x)) ∧ ¬Waits s) ∧
    (t.out.rngTaken = true ↔ ∃ x nn, s.coming = .instr (.rndVxNn x nn))

/-- The flags of `diag` after a step, each exactly for its cause and nothing else (60_exceptions.md sections 1 and 2;
decisions D1, D2, D5 and D26, log 13, log 14, log 7 and log 26). -/
def Obligations.DiagnosticsExactlyForTheirCauses : Prop :=
  ∀ s t : State, step s = .next t →
    (t.out.diag.invalidInstruction = true ↔ ∃ r, s.coming = .invalid r) ∧
    (t.out.diag.stackOverflow = true ↔ (∃ nnn, s.coming = .instr (.call nnn)) ∧ s.sp.val = 64) ∧
    (t.out.diag.stackUnderflow = true ↔ s.coming = .instr .ret ∧ s.sp.val = 0) ∧
    (t.out.diag.addrWrap = true ↔
      4096 ≤ s.pc.toNat + 1 ∨ ∃ i k, s.coming = .instr i ∧ k < dataBytes s i ∧ 4096 ≤ s.i.toNat + k)

/-- The final value of `pc`, for every instruction (40_step_cycle.md section 3; decisions D3, D5, D7, D8 and D13, log 15,
log 7, log 4, log 16 and log 11). -/
def Obligations.FinalPcOfEveryInstruction : Prop :=
  ∀ (i : Instr) (s : State), i.wellFormed = true → ∃ t, exec i s = .next t ∧ t.pc.toNat = finalPc s i

/-- Every instruction answers a next state and changes nothing outside its write set: the three bytes of LD B, the X + 1
bytes of LD [I], at the effective addresses of `I + k`; `stack[sp]` and `sp` for CALL, `sp` alone for RET; of the outputs
those its rule names (10_state.md section 9; that a faulting CALL or RET and a waiting LD Vx, K write nothing is decisions
D5 and D13, log 7 and log 11). -/
def Obligations.EveryInstructionWritesOnlyItsWriteSet : Prop :=
  ∀ (i : Instr) (s : State), ∃ t, exec i s = .next t ∧ KeepsAllBut (writeSet s i) s t

/-- An input that an instruction does not read has no effect at all: under two environments whose inputs agree where the
instruction reads them, exec answers the same but for the environment (40_step_cycle.md section 6, decisions D14 and D15,
log 10 and log 12). -/
def Obligations.InputsNotReadHaveNoEffect : Prop :=
  ∀ (i : Instr) (s : State) (script₁ script₂ : List Turn) (turn₁ turn₂ : Nat),
    ReadsAlike (s.withEnvironment script₁ turn₁).inputs (s.withEnvironment script₂ turn₂).inputs i →
    ∃ t : State, exec i (s.withEnvironment script₁ turn₁) = .next (t.withEnvironment script₁ turn₁) ∧
      exec i (s.withEnvironment script₂ turn₂) = .next (t.withEnvironment script₂ turn₂)

/-! Memory, invariants, reset, loading, ticks. -/

/-- `MemWrite(raw, 1, v)` then `MemRead`: the byte written at its effective address, every other byte as before; of the
outputs a write and a read change ADDR_WRAP alone, which they set when the raw address is 4096 or more; nothing else
changes (20_memory.md section 2, decision D2, log 14). -/
def Obligations.MemoryWriteThenRead : Prop :=
  ∀ (s : State) (raw : Nat) (v : Byte),
    (∀ a, ((s.memWrite raw v).memRead a).1 = if a % 4096 = raw % 4096 then v else (s.memRead a).1) ∧
    KeepsAllBut [.byte (effectiveAddress raw), .flag .addrWrap] s (s.memWrite raw v) ∧
    (s.memWrite raw v).out =
      { s.out with diag := { s.out.diag with addrWrap := s.out.diag.addrWrap || decide (4096 ≤ raw) } } ∧
    KeepsAllBut [.flag .addrWrap] s (s.memRead raw).2 ∧
    (s.memRead raw).2.out =
      { s.out with diag := { s.out.diag with addrWrap := s.out.diag.addrWrap || decide (4096 ≤ raw) } }

/-- The invariant of every step: memory keeps its canonical form, so no byte is listed outside 0..4095 (10_state.md
section 8; the form is the model's, log 6). -/
def Obligations.StepKeepsMemoryCanonical : Prop :=
  ∀ s t : State, Inv s → step s = .next t → Inv t

/-- The invariant holds at reset (log 6). -/
def Obligations.ResetMemoryIsCanonical : Prop := Inv State.reset

/-- In canonical form, memories that read alike at all 4096 addresses are the same data (log 6). -/
def Obligations.MemoriesThatReadAlikeAreEqual : Prop :=
  ∀ (font : Vector Byte 80) (m₁ m₂ : Memory), Memory.wf font m₁ → Memory.wf font m₂ →
    (∀ a, a < 4096 → m₁.read font a = m₂.read font a) → m₁ = m₂

/-- Creation under a configuration: every field zero but `pc` = 512 and the font at 0..79 (10_state.md section 7; the
zero of all other bytes is decision D18, log 6). -/
def Obligations.CreationZeroesAllButPcAndFont : Prop :=
  ∀ cfg : Config,
    (State.created cfg).pc.toNat = 512 ∧ (∀ r, (State.created cfg).reg r = 0) ∧ (State.created cfg).i = 0 ∧
    (State.created cfg).sp.val = 0 ∧ (∀ k, (State.created cfg).stackEntry k = 0) ∧ (State.created cfg).dt = 0 ∧
    (State.created cfg).st = 0 ∧ (∀ row col, (State.created cfg).pixel row col = false) ∧
    (∀ a (h : a < 80), (State.created cfg).byteAt a = cfg.font[a]) ∧
    (∀ a, 80 ≤ a → a < 4096 → (State.created cfg).byteAt a = 0) ∧ (State.created cfg).cfg = cfg

/-- Creation with a program. Every field is zero but `pc`, which is 512; the font lies at 0..79, the program's bytes from
512, every other byte is zero (decision D18, log 6); a program longer than 3584 bytes is refused (70_reset_and_hazards.md
section 1). The clause `Inv s`, that memory is in canonical form, is the model's choice (log 6), not the spec's. -/
def Obligations.LoaderPlacesProgramOrRefuses : Prop :=
  ∀ (cfg : Config) (program : List Byte),
    (program.length ≤ 3584 → ∃ s, boot cfg program = .next s ∧ Inv s ∧ s.cfg = cfg ∧
      s.pc.toNat = 512 ∧ (∀ r, s.reg r = 0) ∧ s.i = 0 ∧ s.sp.val = 0 ∧ (∀ k, s.stackEntry k = 0) ∧ s.dt = 0 ∧ s.st = 0 ∧
      (∀ row col, s.pixel row col = false) ∧
      (∀ a (h : a < 80), s.byteAt a = cfg.font[a]) ∧
      (∀ k (h : k < program.length), s.byteAt (512 + k) = program[k]) ∧
      ∀ a, 80 ≤ a → a < 4096 → (a < 512 ∨ 512 + program.length ≤ a) → s.byteAt a = 0) ∧
    (3584 < program.length → boot cfg program = .refused .programTooLong)

/-- The tick lowers each nonzero timer by one, a timer at 0 stays at 0, nothing else changes; the ticks of a turn are that
many ticks one after another (60_exceptions.md section 5; decision D24, log 24). -/
def Obligations.TicksLowerBothTimersTowardZero : Prop :=
  ∀ s : State,
    (s.tick.dt.toNat = s.dt.toNat - 1 ∧ s.tick.st.toNat = s.st.toNat - 1 ∧ KeepsAllBut [.delay, .sound] s s.tick) ∧
    ∀ n, s.ticks n = State.tick^[n] s

/-- A finished program stands still: a step from a finished state changes no Machine State but the timers, by ticks, and
the state is finished again (70_reset_and_hazards.md section 6; the definition is decision D30, log 28). -/
def Obligations.FinishedProgramStandsStill : Prop :=
  ∀ s : State, Finished s →
    ∃ t, step s = .next t ∧ SameMachineState (s.ticks s.turnNow.ticks) t ∧ Finished t ∧ Clean t

/-! Control transfer. -/

/-- R85: JP NNN sets `pc` to NNN and changes nothing else. -/
def Obligations.JumpSetsPcToAddress : Prop :=
  RowDecodes 0x1000 0xF000 (fun w => .jp (fieldNnn w)) ∧
  ∀ (nnn : Nat) (s : State), nnn < 4096 →
    ∃ t, exec (.jp nnn) s = .next t ∧ t.pc.toNat = nnn ∧ KeepsAllBut [.pc] s t

/-- JP VF, NNN sets `pc` to NNN plus `V[0xF]`, or under the other configuration plus `V[X]` with X the top nibble of NNN;
it changes nothing else (41_control_transfer.md section 1; decisions D7 and D8, log 4 and log 16). -/
def Obligations.OffsetJumpAddsTheConfiguredRegister : Prop :=
  RowDecodes 0xB000 0xF000 (fun w => .jpVfNnn (fieldNnn w)) ∧
  ∀ (nnn : Nat) (s : State), nnn < 4096 →
    ∃ t, exec (.jpVfNnn nnn) s = .next t ∧ KeepsAllBut [.pc] s t ∧
      (s.cfg.jpOffsetSrc = .vF → t.pc.toNat = nnn + (s.reg regF).toNat) ∧
      (s.cfg.jpOffsetSrc = .vX → ∀ x : Reg, x.val = nnn / 256 → t.pc.toNat = nnn + (s.reg x).toNat)

/-- CALL NNN with a stack that is not full stores its own address in the next entry, raises `sp` by one and jumps; no other
entry and nothing else changes (41_control_transfer.md section 1; decisions D4 and D6, log 17 and log 18). -/
def Obligations.CallPushesItsOwnAddress : Prop :=
  RowDecodes 0x2000 0xF000 (fun w => .call (fieldNnn w)) ∧
  ∀ (nnn : Nat) (s : State), nnn < 4096 → s.sp.val < 64 →
    ∃ t, exec (.call nnn) s = .next t ∧ t.stackEntry s.sp.val = s.pc ∧ t.sp.val = s.sp.val + 1 ∧ t.pc.toNat = nnn ∧
      (∀ k, k ≠ s.sp.val → t.stackEntry k = s.stackEntry k) ∧ KeepsAllBut [.pc, .entry s.sp.val, .sp] s t

/-- RET with a stack that is not empty lowers `sp` by one and goes to the popped entry plus 2 modulo 65536; the entry keeps
its value and nothing else changes (41_control_transfer.md section 1; decisions D3, D4, D6 and D28, log 15, log 17, log 18
and log 29). -/
def Obligations.ReturnGoesPastTheCall : Prop :=
  RowDecodes 0x000E 0xF00F (fun _ => .ret) ∧
  ∀ s : State, 0 < s.sp.val →
    ∃ t, exec .ret s = .next t ∧ t.sp.val + 1 = s.sp.val ∧ t.pc.toNat = ((s.stackEntry t.sp.val).toNat + 2) % 65536 ∧
      (∀ k, t.stackEntry k = s.stackEntry k) ∧ KeepsAllBut [.pc, .sp] s t

/-- A RET right after a CALL comes back to the word after the CALL with the stack pointer restored; every live entry and
everything else is as before the CALL (95_test_vectors.md S7; decisions D3, D4 and D6, log 15, log 17 and log 18). -/
def Obligations.CallThenReturnRoundTrip : Prop :=
  ∀ (nnn : Nat) (s : State), s.sp.val < 64 →
    ∃ t u, exec (.call nnn) s = .next t ∧ exec .ret t = .next u ∧ u.pc.toNat = nextWordAddress s ∧ u.sp = s.sp ∧
      (∀ k, k < s.sp.val → u.stackEntry k = s.stackEntry k) ∧ KeepsAllBut [.pc, .entry s.sp.val] s u

/-- The two faults: CALL on a full stack and RET on an empty one change no Machine State at all, `pc` included, raise
their flag, and the next activation fetches the same word and raises it again (60_exceptions.md section 1; decision D5,
log 7). -/
def Obligations.StackFaultsChangeNothingAndRepeat : Prop :=
  (∀ (nnn : Nat) (s : State), s.coming = .instr (.call nnn) → s.sp.val = 64 →
    ∃ t, step s = .next t ∧ SameMachineState (s.ticks s.turnNow.ticks) t ∧ t.out.diag.stackOverflow = true ∧
      t.coming = .instr (.call nnn) ∧ ∃ u, step t = .next u ∧ u.out.diag.stackOverflow = true) ∧
  (∀ s : State, s.coming = .instr .ret → s.sp.val = 0 →
    ∃ t, step s = .next t ∧ SameMachineState (s.ticks s.turnNow.ticks) t ∧ t.out.diag.stackUnderflow = true ∧
      t.coming = .instr .ret ∧ ∃ u, step t = .next u ∧ u.out.diag.stackUnderflow = true)

/-! Skips. -/

/-- R95 to R98: the four register skips advance `pc` by 4 modulo 65536 when their condition holds, else by 2, and change
nothing else. -/
def Obligations.RegisterSkipsAdvanceByFourOrTwo : Prop :=
  RowDecodes 0x3000 0xF000 (fun w => .seVxNn (fieldX w) (fieldNn w)) ∧
  RowDecodes 0x4000 0xF000 (fun w => .sneVxNn (fieldX w) (fieldNn w)) ∧
  RowDecodes 0x5000 0xF000 (fun w => .seVxVy (fieldX w) (fieldY w)) ∧
  RowDecodes 0x9000 0xF000 (fun w => .sneVxVy (fieldX w) (fieldY w)) ∧
  ∀ (x y : Reg) (nn : Byte) (s : State),
    (∃ t, exec (.seVxNn x nn) s = .next t ∧ KeepsAllBut [.pc] s t ∧
      t.pc.toNat = if (s.reg x).toNat = nn.toNat then (s.pc.toNat + 4) % 65536 else (s.pc.toNat + 2) % 65536) ∧
    (∃ t, exec (.sneVxNn x nn) s = .next t ∧ KeepsAllBut [.pc] s t ∧
      t.pc.toNat = if (s.reg x).toNat ≠ nn.toNat then (s.pc.toNat + 4) % 65536 else (s.pc.toNat + 2) % 65536) ∧
    (∃ t, exec (.seVxVy x y) s = .next t ∧ KeepsAllBut [.pc] s t ∧
      t.pc.toNat = if (s.reg x).toNat = (s.reg y).toNat then (s.pc.toNat + 4) % 65536 else (s.pc.toNat + 2) % 65536) ∧
    (∃ t, exec (.sneVxVy x y) s = .next t ∧ KeepsAllBut [.pc] s t ∧
      t.pc.toNat = if (s.reg x).toNat ≠ (s.reg y).toNat then (s.pc.toNat + 4) % 65536 else (s.pc.toNat + 2) % 65536)

/-- SKP and SKNP: the key is pressed when the register names a key 0..15 whose bit of `key_held` is 1; a value of 16 or
more names none. SKP skips then, SKNP otherwise; nothing else changes (47_input_timers_random.md section 1; decision D12,
log 19). -/
def Obligations.KeySkipsTestTheHeldKey : Prop :=
  RowDecodes 0xE09E 0xF0FF (fun w => .skpVx (fieldX w)) ∧ RowDecodes 0xE0A1 0xF0FF (fun w => .sknpVx (fieldX w)) ∧
  ∀ (x : Reg) (s : State),
    ∃ t u, exec (.skpVx x) s = .next t ∧ exec (.sknpVx x) s = .next u ∧ KeepsAllBut [.pc] s t ∧ KeepsAllBut [.pc] s u ∧
      (Holds s (s.reg x) → t.pc.toNat = (s.pc.toNat + 4) % 65536 ∧ u.pc.toNat = (s.pc.toNat + 2) % 65536) ∧
      (¬Holds s (s.reg x) → t.pc.toNat = (s.pc.toNat + 2) % 65536 ∧ u.pc.toNat = (s.pc.toNat + 4) % 65536) ∧
      (16 ≤ (s.reg x).toNat → t.pc.toNat = (s.pc.toNat + 2) % 65536 ∧ u.pc.toNat = (s.pc.toNat + 4) % 65536)

/-! Immediates and the ALU. -/

/-- R100: LD Vx, NN puts NN in `V[X]` and changes nothing else but `pc`. -/
def Obligations.LoadImmediateSetsRegister : Prop :=
  RowDecodes 0x6000 0xF000 (fun w => .ldVxNn (fieldX w) (fieldNn w)) ∧
  ∀ (x : Reg) (nn : Byte) (s : State),
    ∃ t, exec (.ldVxNn x nn) s = .next t ∧ t.reg x = nn ∧ Advances s t ∧ KeepsAllBut [.pc, .reg x] s t

/-- ADD Vx, NN adds modulo 256 and writes no flag: every register but `V[X]` is as before (43_load_add_immediate.md
section 1; that `V[0xF]` is not written is decision D20, log 20). -/
def Obligations.AddImmediateWrapsWithoutFlag : Prop :=
  RowDecodes 0x7000 0xF000 (fun w => .addVxNn (fieldX w) (fieldNn w)) ∧
  ∀ (x : Reg) (nn : Byte) (s : State),
    ∃ t, exec (.addVxNn x nn) s = .next t ∧ (t.reg x).toNat = ((s.reg x).toNat + nn.toNat) % 256 ∧
      t.pc.toNat = nextWordAddress s ∧ KeepsAllBut [.pc, .reg x] s t

/-- R105: LD Vx, Vy copies `V[Y]` to `V[X]` and changes nothing else but `pc`. -/
def Obligations.LoadRegisterCopies : Prop :=
  RowDecodes 0x8000 0xF00F (fun w => .ldVxVy (fieldX w) (fieldY w)) ∧
  ∀ (x y : Reg) (s : State),
    ∃ t, exec (.ldVxVy x y) s = .next t ∧ t.reg x = s.reg y ∧ Advances s t ∧
      KeepsAllBut [.pc, .reg x] s t

/-- OR, AND and XOR, bit by bit; `V[0xF]` is not written unless it is `V[X]` (44_alu.md section 1; decision D20, log 20). -/
def Obligations.LogicIsBitwiseWithoutFlag : Prop :=
  RowDecodes 0x8001 0xF00F (fun w => .orVxVy (fieldX w) (fieldY w)) ∧
  RowDecodes 0x8002 0xF00F (fun w => .andVxVy (fieldX w) (fieldY w)) ∧
  RowDecodes 0x8003 0xF00F (fun w => .xorVxVy (fieldX w) (fieldY w)) ∧
  ∀ (x y : Reg) (s : State),
    (∃ t, exec (.orVxVy x y) s = .next t ∧ t.pc.toNat = nextWordAddress s ∧ KeepsAllBut [.pc, .reg x] s t ∧
      ∀ k, (t.reg x).getLsbD k = ((s.reg x).getLsbD k || (s.reg y).getLsbD k)) ∧
    (∃ t, exec (.andVxVy x y) s = .next t ∧ t.pc.toNat = nextWordAddress s ∧ KeepsAllBut [.pc, .reg x] s t ∧
      ∀ k, (t.reg x).getLsbD k = ((s.reg x).getLsbD k && (s.reg y).getLsbD k)) ∧
    (∃ t, exec (.xorVxVy x y) s = .next t ∧ t.pc.toNat = nextWordAddress s ∧ KeepsAllBut [.pc, .reg x] s t ∧
      ∀ k, (t.reg x).getLsbD k = ((s.reg x).getLsbD k != (s.reg y).getLsbD k))

/-- R109, R110, R112: ADD, SUB and SUBN. The result goes to `V[X]` and the flag of the pre-op values to `V[0xF]` second,
so that with X = 0xF the flag is what remains; the flag is strict, 0 on equal operands of SUB and SUBN. -/
def Obligations.AddAndSubtractSetResultThenFlag : Prop :=
  RowDecodes 0x8004 0xF00F (fun w => .addVxVy (fieldX w) (fieldY w)) ∧
  RowDecodes 0x8005 0xF00F (fun w => .subVxVy (fieldX w) (fieldY w)) ∧
  RowDecodes 0x8007 0xF00F (fun w => .subnVxVy (fieldX w) (fieldY w)) ∧
  ∀ (x y : Reg) (s : State),
    (∃ t, exec (.addVxVy x y) s = .next t ∧ Advances s t ∧
      KeepsAllBut [.pc, .reg x, .reg regF] s t ∧
      (x ≠ regF → (t.reg x).toNat = ((s.reg x).toNat + (s.reg y).toNat) % 256) ∧
      (t.reg regF).toNat = if 255 < (s.reg x).toNat + (s.reg y).toNat then 1 else 0) ∧
    (∃ t, exec (.subVxVy x y) s = .next t ∧ Advances s t ∧
      KeepsAllBut [.pc, .reg x, .reg regF] s t ∧
      (x ≠ regF → ((t.reg x).toNat : Int) = (((s.reg x).toNat : Int) - ((s.reg y).toNat : Int)) % 256) ∧
      (t.reg regF).toNat = if (s.reg y).toNat < (s.reg x).toNat then 1 else 0) ∧
    (∃ t, exec (.subnVxVy x y) s = .next t ∧ Advances s t ∧
      KeepsAllBut [.pc, .reg x, .reg regF] s t ∧
      (x ≠ regF → ((t.reg x).toNat : Int) = (((s.reg y).toNat : Int) - ((s.reg x).toNat : Int)) % 256) ∧
      (t.reg regF).toNat = if (s.reg x).toNat < (s.reg y).toNat then 1 else 0)

/-- R111, R113: SHR and SHL shift `V[Y]` by one, with zero fill, into `V[X]`, and the bit shifted out goes to `V[0xF]`
second. -/
def Obligations.ShiftsTakeVyAndKeepTheBitShiftedOut : Prop :=
  RowDecodes 0x8006 0xF00F (fun w => .shrVxVy (fieldX w) (fieldY w)) ∧
  RowDecodes 0x800E 0xF00F (fun w => .shlVxVy (fieldX w) (fieldY w)) ∧
  ∀ (x y : Reg) (s : State),
    (∃ t, exec (.shrVxVy x y) s = .next t ∧ Advances s t ∧
      KeepsAllBut [.pc, .reg x, .reg regF] s t ∧
      (x ≠ regF → (t.reg x).toNat = (s.reg y).toNat / 2) ∧ (t.reg regF).toNat = (s.reg y).toNat % 2) ∧
    (∃ t, exec (.shlVxVy x y) s = .next t ∧ Advances s t ∧
      KeepsAllBut [.pc, .reg x, .reg regF] s t ∧
      (x ≠ regF → (t.reg x).toNat = (s.reg y).toNat * 2 % 256) ∧ (t.reg regF).toNat = (s.reg y).toNat / 128)

/-- When an instruction sets `V[0xF]` as a flag it holds exactly 0 or 1 afterwards (10_state.md section 2; that there are no
other flag writers is decision D20, log 20). -/
def Obligations.FlagIsExactlyZeroOrOne : Prop :=
  ∀ (x y : Reg) (n : Nat) (s : State) (i : Instr),
    i ∈ [.addVxVy x y, .subVxVy x y, .shrVxVy x y, .subnVxVy x y, .shlVxVy x y, .drwVxVyN x y n] →
    ∃ t, exec i s = .next t ∧ (t.reg regF = 0 ∨ t.reg regF = 1)

/-! Index register and memory instructions. -/

/-- R120: LD I, NNN sets `I` to the zero-extended NNN and changes nothing else but `pc`. -/
def Obligations.LoadIndexSetsAddress : Prop :=
  RowDecodes 0xA000 0xF000 (fun w => .ldINnn (fieldNnn w)) ∧
  ∀ (nnn : Nat) (s : State), nnn < 4096 →
    ∃ t, exec (.ldINnn nnn) s = .next t ∧ t.i.toNat = nnn ∧ Advances s t ∧
      KeepsAllBut [.pc, .index] s t

/-- ADD I, Vx adds modulo 65536 with no flag and no diagnostic; LD F, Vx sets `I` to five times the whole byte
(45_index_memory.md section 1; decisions D20 and D21, log 20 and log 21). -/
def Obligations.IndexAddAndGlyphAddress : Prop :=
  RowDecodes 0xF01E 0xF0FF (fun w => .addIVx (fieldX w)) ∧ RowDecodes 0xF029 0xF0FF (fun w => .ldFVx (fieldX w)) ∧
  ∀ (x : Reg) (s : State),
    (∃ t, exec (.addIVx x) s = .next t ∧ t.i.toNat = (s.i.toNat + (s.reg x).toNat) % 65536 ∧
      t.pc.toNat = nextWordAddress s ∧ KeepsAllBut [.pc, .index] s t) ∧
    (∃ t, exec (.ldFVx x) s = .next t ∧ t.i.toNat = (s.reg x).toNat * 5 ∧
      t.pc.toNat = nextWordAddress s ∧ KeepsAllBut [.pc, .index] s t)

/-- R123: LD B, Vx writes the three decimal digits, hundreds first, at `I`, `I + 1`, `I + 2` modulo 4096; every byte at
another address, `I` and all else are as before; ADDR_WRAP when `I + 2 >= 4096`. -/
def Obligations.DecimalStoreWritesThreeDigits : Prop :=
  RowDecodes 0xF033 0xF0FF (fun w => .ldBVx (fieldX w)) ∧
  ∀ (x : Reg) (s : State),
    ∃ t, exec (.ldBVx x) s = .next t ∧ Advances s t ∧
      (t.byteAt (s.indexRaw 0)).toNat = (s.reg x).toNat / 100 ∧
      (t.byteAt (s.indexRaw 1)).toNat = (s.reg x).toNat / 10 % 10 ∧
      (t.byteAt (s.indexRaw 2)).toNat = (s.reg x).toNat % 10 ∧
      (∀ a, (∀ k, k < 3 → effectiveAddress a ≠ effectiveAddress (s.indexRaw k)) → t.byteAt a = s.byteAt a) ∧
      KeepsAllBut ([.pc, .flag .addrWrap] ++ bytesAtIndex s 3) s t ∧
      t.out = { s.out with diag := { s.out.diag with addrWrap := s.out.diag.addrWrap || decide (4096 ≤ s.i.toNat + 2) } }

/-- LD [I], Vx stores `V[0]`..`V[X]` at `I`..`I + X` modulo 4096 and leaves `I` at `I + X + 1` modulo 65536; every byte at
another address, the registers and all else are as before; ADDR_WRAP when `I + X >= 4096` (45_index_memory.md section 1;
the 16-bit reduction of `I` is decision D3, log 15). -/
def Obligations.RegisterStoreWritesRangeAndMovesIndex : Prop :=
  RowDecodes 0xF055 0xF0FF (fun w => .ldMemVx (fieldX w)) ∧
  ∀ (x : Reg) (s : State),
    ∃ t, exec (.ldMemVx x) s = .next t ∧ t.pc.toNat = nextWordAddress s ∧
      (∀ k : Reg, k ≤ x → t.byteAt (s.indexRaw k.val) = s.reg k) ∧
      (∀ a, (∀ k : Reg, k ≤ x → effectiveAddress a ≠ effectiveAddress (s.indexRaw k.val)) → t.byteAt a = s.byteAt a) ∧
      t.i.toNat = (s.i.toNat + x.val + 1) % 65536 ∧
      KeepsAllBut ([.pc, .index, .flag .addrWrap] ++ bytesAtIndex s (x.val + 1)) s t ∧
      t.out = { s.out with
        diag := { s.out.diag with addrWrap := s.out.diag.addrWrap || decide (4096 ≤ s.i.toNat + x.val) } }

/-- R125: LD Vx, [I] loads `V[0]`..`V[X]` from `I`..`I + X` modulo 4096 and leaves `I` at `I + X + 1` modulo 65536; the
registers above X, memory and all else are as before; ADDR_WRAP when `I + X >= 4096`. -/
def Obligations.RegisterLoadReadsRangeAndMovesIndex : Prop :=
  RowDecodes 0xF065 0xF0FF (fun w => .ldVxMem (fieldX w)) ∧
  ∀ (x : Reg) (s : State),
    ∃ t, exec (.ldVxMem x) s = .next t ∧ Advances s t ∧
      (∀ k : Reg, k ≤ x → t.reg k = s.byteAt (s.indexRaw k.val)) ∧ (∀ k : Reg, x < k → t.reg k = s.reg k) ∧
      t.i.toNat = (s.i.toNat + x.val + 1) % 65536 ∧
      KeepsAllBut ([.pc, .index, .flag .addrWrap] ++ regsUpTo x) s t ∧
      t.out = { s.out with
        diag := { s.out.diag with addrWrap := s.out.diag.addrWrap || decide (4096 ≤ s.i.toNat + x.val) } }

/-- LD [I], Vx, then `I` back at the start, then LD Vx, [I] with the same X: every register is as it was stored, whatever
the registers held in between (45_index_memory.md section 2). -/
def Obligations.StoreThenLoadRestoresRegisters : Prop :=
  ∀ (x : Reg) (s : State) (between : Vector Byte 16),
    ∃ t u, exec (.ldMemVx x) s = .next t ∧ exec (.ldVxMem x) { t with i := s.i, v := between } = .next u ∧
      ∀ k : Reg, k ≤ x → u.reg k = s.reg k

/-! Display. -/

/-- R130: CLS turns every pixel off; `V[0xF]` and all else but `pc` are as before, and `redraw` is 0 after the step. -/
def Obligations.ClearTurnsEveryPixelOff : Prop :=
  RowDecodes 0x0000 0xF00F (fun _ => .cls) ∧
  ∀ s : State, ∃ t, exec .cls s = .next t ∧ Advances s t ∧ KeepsAllBut [.pc, .screen] s t ∧
    (∀ row col, t.pixel row col = false) ∧ (s.coming = .instr .cls → ∃ u, step s = .next u ∧ u.out.redraw = false)

/-- DRW Vx, Vy, N in closed form: a pixel is inverted exactly when a drawn 1 bit of the sprite lies on it; `V[0xF]` is 1
when one of those pixels was on, else 0; `redraw` is 1; `I`, memory and all else are as before; ADDR_WRAP when a row that is
read has a raw address of 4096 or more (46_display.md sections 1 and 2; that the coordinates are read before `V[0xF]` is
reset and that clipped rows are not read are decisions D9 and D26, log 25 and log 26). -/
def Obligations.SpriteDrawXorsExactlyTheDrawnBits : Prop :=
  RowDecodes 0xD000 0xF000 (fun w => .drwVxVyN (fieldX w) (fieldY w) (fieldN w)) ∧
  ∀ (x y : Reg) (n : Nat) (s : State),
    ∃ t, exec (.drwVxVyN x y n) s = .next t ∧ t.pc.toNat = nextWordAddress s ∧
      (∀ row col, t.pixel row col = (s.pixel row col != decide (DrawnAt s x y n row col))) ∧
      (t.reg regF = 1 ↔ ∃ row col, DrawnAt s x y n row col ∧ s.pixel row col = true) ∧
      (t.reg regF = 0 ∨ t.reg regF = 1) ∧
      (t.out.diag.addrWrap = true ↔ s.out.diag.addrWrap = true ∨
        ∃ r, r < n ∧ (s.reg y).toNat % 32 + r < 32 ∧ 4096 ≤ s.indexRaw r) ∧
      t.out = { s.out with redraw := true, diag := { s.out.diag with addrWrap := t.out.diag.addrWrap } } ∧
      KeepsAllBut [.pc, .reg regF, .screen, .redraw, .flag .addrWrap] s t

/-- R133: the same sprite at the same position drawn twice in succession restores the frame buffer, and the second draw's
flag is 1 exactly when some pixel under a drawn 1 bit was off before the first; on a clear screen, exactly when the sprite
has a drawn 1 bit. The premise is the rule's: the second draw finds the same `V[X] mod 64` and `V[Y] mod 32`. -/
def Obligations.DrawingTwiceRestoresTheScreen : Prop :=
  ∀ (x y : Reg) (n : Nat) (s t : State), exec (.drwVxVyN x y n) s = .next t →
    (t.reg x).toNat % 64 = (s.reg x).toNat % 64 → (t.reg y).toNat % 32 = (s.reg y).toNat % 32 →
    ∃ u, exec (.drwVxVyN x y n) t = .next u ∧ u.fb = s.fb ∧
      (u.reg regF = 1 ↔ ∃ row col, DrawnAt s x y n row col ∧ s.pixel row col = false) ∧
      (u.reg regF = 0 ∨ u.reg regF = 1) ∧
      ((∀ row col, s.pixel row col = false) → (u.reg regF = 1 ↔ ∃ row col, DrawnAt s x y n row col))

/-! Keypad, timers, random. -/

/-- LD Vx, K: while no key is held or no press event is there it waits and nothing at all changes; else `V[X]` gets the
event's key, the event is taken and `pc` advances (47_input_timers_random.md section 1; decision D13, log 11). -/
def Obligations.KeyWaitTakesAnEventOrChangesNothing : Prop :=
  RowDecodes 0xF00A 0xF0FF (fun w => .ldVxK (fieldX w)) ∧
  ∀ (x : Reg) (s : State),
    (Waits s → exec (.ldVxK x) s = .next s) ∧
    (∀ key, s.inputs.keyHeld ≠ 0 → s.inputs.keyEvent = some key →
      ∃ t, exec (.ldVxK x) s = .next t ∧ (t.reg x).toNat = key.val ∧ t.pc.toNat = nextWordAddress s ∧
        t.out = { s.out with keyEventTaken := true } ∧ KeepsAllBut [.pc, .reg x, .keyEventTaken] s t)

/-- FX07 reads the delay timer, FX15 writes it and FX18 writes the sound timer; nothing else changes but `pc`
(47_input_timers_random.md section 2; the assignment of the three encodings is decision D11, log 22). -/
def Obligations.TimerMovesReadAndWriteTheTimers : Prop :=
  RowDecodes 0xF007 0xF0FF (fun w => .ldVxDt (fieldX w)) ∧ RowDecodes 0xF015 0xF0FF (fun w => .ldDtVx (fieldX w)) ∧
  RowDecodes 0xF018 0xF0FF (fun w => .ldStVx (fieldX w)) ∧
  ∀ (x : Reg) (s : State),
    (∃ t, exec (.ldVxDt x) s = .next t ∧ t.reg x = s.dt ∧ t.pc.toNat = nextWordAddress s ∧
      KeepsAllBut [.pc, .reg x] s t) ∧
    (∃ t, exec (.ldDtVx x) s = .next t ∧ t.dt = s.reg x ∧ t.pc.toNat = nextWordAddress s ∧
      KeepsAllBut [.pc, .delay] s t) ∧
    (∃ t, exec (.ldStVx x) s = .next t ∧ t.st = s.reg x ∧ t.pc.toNat = nextWordAddress s ∧
      KeepsAllBut [.pc, .sound] s t)

/-- R146: RND Vx, NN puts the random byte AND NN in `V[X]`, bit by bit, and takes one byte, which no other instruction
does; nothing else changes but `pc`. It holds for every byte the source may supply. -/
def Obligations.RandomByteIsMasked : Prop :=
  RowDecodes 0xC000 0xF000 (fun w => .rndVxNn (fieldX w) (fieldNn w)) ∧
  (∀ (x : Reg) (nn : Byte) (s : State),
    ∃ t, exec (.rndVxNn x nn) s = .next t ∧
      (∀ k, (t.reg x).getLsbD k = (s.inputs.rngByte.getLsbD k && nn.getLsbD k)) ∧ Advances s t ∧
      t.out = { s.out with rngTaken := true } ∧ KeepsAllBut [.pc, .reg x, .rngTaken] s t) ∧
  ∀ s t : State, step s = .next t → (t.out.rngTaken = true ↔ ∃ x nn, s.coming = .instr (.rndVxNn x nn))
end

