-- ==== Sys2Proof/Laws/Decode.lean ====
section
/-! SUPPORT. The fields of an instruction word: what a row's mask says of them, what they are in an encoded word, and that a
word is put together from them. -/

namespace Sys2Proof

theorem fieldClass_toNat (w : Word) : fieldClass w = w.toNat / 4096 := by
  unfold fieldClass
  simp [BitVec.extractLsb'_toNat, Nat.shiftRight_eq_div_pow]
  omega

theorem fieldX_val (w : Word) : (fieldX w).val = w.toNat / 256 % 16 := by
  unfold fieldX
  simp [Nat.shiftRight_eq_div_pow]

theorem fieldY_val (w : Word) : (fieldY w).val = w.toNat / 16 % 16 := by
  unfold fieldY
  simp [Nat.shiftRight_eq_div_pow]

theorem fieldN_toNat (w : Word) : fieldN w = w.toNat % 16 := by
  unfold fieldN
  simp

theorem fieldNn_toNat (w : Word) : (fieldNn w).toNat = w.toNat % 256 := by
  unfold fieldNn
  simp

theorem fieldNnn_toNat (w : Word) : fieldNnn w = w.toNat % 4096 := by
  unfold fieldNnn
  simp

/-- Two words with the same four nibbles are the same word (R51). -/
theorem word_ext {a b : Word} (hc : fieldClass a = fieldClass b) (hx : fieldX a = fieldX b) (hy : fieldY a = fieldY b)
    (hn : fieldN a = fieldN b) : a = b := by
  have hx := congrArg Fin.val hx
  have hy := congrArg Fin.val hy
  simp only [fieldClass_toNat, fieldX_val, fieldY_val, fieldN_toNat] at *
  apply BitVec.eq_of_toNat_eq
  omega

/-! A mask keeps the nibbles where it is 0xF and clears those where it is 0x0. -/

theorem fieldClass_and {w m : Word} (h : m.extractLsb' 12 4 = 15#4) : fieldClass (w &&& m) = fieldClass w := by
  have := BitVec.and_allOnes (x := w.extractLsb' 12 4)
  simp_all [fieldClass, BitVec.extractLsb'_and]

theorem fieldX_and {w m : Word} (h : m.extractLsb' 8 4 = 15#4) : fieldX (w &&& m) = fieldX w := by
  have := BitVec.and_allOnes (x := w.extractLsb' 8 4)
  simp_all [fieldX, BitVec.extractLsb'_and]

theorem fieldX_and_zero {w m : Word} (h : m.extractLsb' 8 4 = 0#4) : fieldX (w &&& m) = 0 := by
  simp [fieldX, BitVec.extractLsb'_and, h]

theorem fieldY_and {w m : Word} (h : m.extractLsb' 4 4 = 15#4) : fieldY (w &&& m) = fieldY w := by
  have := BitVec.and_allOnes (x := w.extractLsb' 4 4)
  simp_all [fieldY, BitVec.extractLsb'_and]

theorem fieldY_and_zero {w m : Word} (h : m.extractLsb' 4 4 = 0#4) : fieldY (w &&& m) = 0 := by
  simp [fieldY, BitVec.extractLsb'_and, h]

theorem fieldN_and {w m : Word} (h : m.extractLsb' 0 4 = 15#4) : fieldN (w &&& m) = fieldN w := by
  have := BitVec.and_allOnes (x := w.extractLsb' 0 4)
  simp_all [fieldN, BitVec.extractLsb'_and]

theorem fieldN_and_zero {w m : Word} (h : m.extractLsb' 0 4 = 0#4) : fieldN (w &&& m) = 0 := by
  simp [fieldN, BitVec.extractLsb'_and, h]

theorem fieldNn_and {w m : Word} (h : m.extractLsb' 0 8 = 255#8) : fieldNn (w &&& m) = fieldNn w := by
  have := BitVec.and_allOnes (x := w.extractLsb' 0 8)
  simp_all [fieldNn, BitVec.extractLsb'_and]

/-! The words the encoder puts together. -/

theorem wordA_toNat {cls nnn : Nat} (hc : cls < 16) (hn : nnn < 4096) : (wordA cls nnn).toNat = cls * 4096 + nnn := by
  simp only [wordA, BitVec.toNat_ofNat]
  omega

theorem wordXI_toNat {cls nn : Nat} (x : Reg) (hc : cls < 16) (hn : nn < 256) :
    (wordXI cls x nn).toNat = cls * 4096 + x.val * 256 + nn := by
  simp only [wordXI, BitVec.toNat_ofNat]
  omega

theorem wordXY_toNat {cls n : Nat} (x y : Reg) (hc : cls < 16) (hn : n < 16) :
    (wordXY cls x y n).toNat = cls * 4096 + x.val * 256 + y.val * 16 + n := by
  simp only [wordXY, BitVec.toNat_ofNat]
  omega

theorem wordOfBytes_toNat (hi lo : Byte) : (wordOfBytes hi lo).toNat = 256 * hi.toNat + lo.toNat := by
  have h := Nat.shiftLeft_add_eq_or_of_lt (b := lo.toNat) (i := 8) lo.isLt hi.toNat
  rw [wordOfBytes, BitVec.toNat_append, ← h, Nat.shiftLeft_eq]
  omega

theorem highByte_toNat (w : Word) : (highByte w).toNat = w.toNat / 256 := by
  simp [highByte, Nat.shiftRight_eq_div_pow]
  omega

theorem lowByte_toNat (w : Word) : (lowByte w).toNat = w.toNat % 256 := by
  simp [lowByte]

/-- The two bytes of a word put together again (R50). -/
theorem wordOfBytes_bytes (w : Word) : wordOfBytes (highByte w) (lowByte w) = w := by
  apply BitVec.eq_of_toNat_eq
  rw [wordOfBytes_toNat, highByte_toNat, lowByte_toNat]
  omega

end Sys2Proof
end

