-- ==== Sys2Proof/Laws/Memory.lean ====
section
/-! SUPPORT. The laws of the sparse memory: what a write changes, what it leaves, and that it keeps the canonical form. -/

namespace Sys2Proof.Machine

variable {font : Vector Byte 80} {m : Memory} {a b : Nat} {v : Byte}

theorem Memory.find_insert (m : Memory) (a b : Nat) (v : Byte) :
    (m.insert a v).find b = if b = a then some v else m.find b := by
  induction m with
  | nil => simp [Memory.insert, Memory.find, eq_comm]
  | cons c rest ih =>
    simp only [Memory.insert]
    split
    · simp [Memory.find, eq_comm]
    · split
      · subst_vars
        simp only [Memory.find, eq_comm (a := b)]
        split <;> rfl
      · simp only [Memory.find, ih]
        grind

theorem Memory.mem_insert_key {c : Host.Cell} (h : c ∈ m.insert a v) : c = (a, v) ∨ c ∈ m := by
  induction m with
  | nil => simp_all [Memory.insert]
  | cons d rest ih =>
    simp only [Memory.insert] at h
    grind

theorem Memory.mem_erase {c : Host.Cell} (h : c ∈ m.erase a) : c ∈ m := List.mem_of_mem_filter h

theorem Memory.find_erase (m : Memory) (a b : Nat) : (m.erase a).find b = if b = a then none else m.find b := by
  unfold Memory.erase
  induction m with
  | nil => simp [Memory.find]
  | cons c rest ih =>
    simp only [List.filter_cons]
    split <;> simp only [Memory.find, ih] <;> grind

theorem Memory.insert_rising (hm : m.Pairwise fun c d => c.1 < d.1) :
    (m.insert a v).Pairwise fun c d => c.1 < d.1 := by
  induction m with
  | nil => simp [Memory.insert]
  | cons c rest ih =>
    obtain ⟨hc, hr⟩ := List.pairwise_cons.mp hm
    simp only [Memory.insert]
    split
    · rename_i h
      refine List.pairwise_cons.mpr ⟨fun d hd => ?_, hm⟩
      obtain rfl | hd := List.mem_cons.mp hd
      · exact h
      · exact Nat.lt_trans h (hc d hd)
    · split
      · subst_vars
        exact List.pairwise_cons.mpr ⟨hc, hr⟩
      · refine List.pairwise_cons.mpr ⟨fun d hd => ?_, ih hr⟩
        obtain rfl | hd := Memory.mem_insert_key hd
        · simp only
          omega
        · exact hc d hd

theorem Memory.erase_rising (hm : m.Pairwise fun c d => c.1 < d.1) :
    (m.erase a).Pairwise fun c d => c.1 < d.1 := List.Pairwise.filter _ hm

/-- A write keeps the canonical form: the one lemma about `Memory.wf` that the state's operations need. -/
theorem Memory.write_wf (hm : m.wf font) (ha : a < 4096) : (m.write font a v).wf font := by
  obtain ⟨hr, hc⟩ := hm
  unfold Memory.write
  split
  · exact ⟨Memory.erase_rising hr, fun c h => hc c (Memory.mem_erase h)⟩
  · rename_i hv
    refine ⟨Memory.insert_rising hr, fun c h => ?_⟩
    obtain rfl | h := Memory.mem_insert_key h
    · exact ⟨ha, hv⟩
    · exact hc c h

theorem Memory.nil_wf : Memory.wf font [] := by simp [Memory.wf]

/-- A read after a write to the same place gives the value written, and a write leaves every other place alone. -/
theorem Memory.read_write (font : Vector Byte 80) (m : Memory) (a b : Nat) (v : Byte) :
    (m.write font a v).read font b = if b = a then v else m.read font b := by
  unfold Memory.read Memory.write
  split
  · rename_i hv
    rw [Memory.find_erase]
    split <;> simp_all
  · rw [Memory.find_insert]
    split <;> simp_all

end Sys2Proof.Machine
end

