-- ==== Sys2Proof/Laws/State.lean ====
section
/-! SUPPORT. One lemma per field per update of the state: what the update puts there, or that it leaves it. -/

namespace Sys2Proof.Machine

variable (s : State)

/-! `setReg` -/

@[simp] theorem State.setReg_v (r : Reg) (b : Byte) : (s.setReg r b).v = s.v.set r.val b r.isLt := rfl
@[simp] theorem State.setReg_pc (r : Reg) (b : Byte) : (s.setReg r b).pc = s.pc := rfl
@[simp] theorem State.setReg_i (r : Reg) (b : Byte) : (s.setReg r b).i = s.i := rfl
@[simp] theorem State.setReg_stack (r : Reg) (b : Byte) : (s.setReg r b).stack = s.stack := rfl
@[simp] theorem State.setReg_sp (r : Reg) (b : Byte) : (s.setReg r b).sp = s.sp := rfl
@[simp] theorem State.setReg_dt (r : Reg) (b : Byte) : (s.setReg r b).dt = s.dt := rfl
@[simp] theorem State.setReg_st (r : Reg) (b : Byte) : (s.setReg r b).st = s.st := rfl
@[simp] theorem State.setReg_fb (r : Reg) (b : Byte) : (s.setReg r b).fb = s.fb := rfl
@[simp] theorem State.setReg_mem (r : Reg) (b : Byte) : (s.setReg r b).mem = s.mem := rfl
@[simp] theorem State.setReg_out (r : Reg) (b : Byte) : (s.setReg r b).out = s.out := rfl
@[simp] theorem State.setReg_cfg (r : Reg) (b : Byte) : (s.setReg r b).cfg = s.cfg := rfl
@[simp] theorem State.setReg_script (r : Reg) (b : Byte) : (s.setReg r b).script = s.script := rfl
@[simp] theorem State.setReg_turn (r : Reg) (b : Byte) : (s.setReg r b).turn = s.turn := rfl

/-! `setIndex` -/

@[simp] theorem State.setIndex_v (a : Word) : (s.setIndex a).v = s.v := rfl
@[simp] theorem State.setIndex_pc (a : Word) : (s.setIndex a).pc = s.pc := rfl
@[simp] theorem State.setIndex_i (a : Word) : (s.setIndex a).i = a := rfl
@[simp] theorem State.setIndex_stack (a : Word) : (s.setIndex a).stack = s.stack := rfl
@[simp] theorem State.setIndex_sp (a : Word) : (s.setIndex a).sp = s.sp := rfl
@[simp] theorem State.setIndex_dt (a : Word) : (s.setIndex a).dt = s.dt := rfl
@[simp] theorem State.setIndex_st (a : Word) : (s.setIndex a).st = s.st := rfl
@[simp] theorem State.setIndex_fb (a : Word) : (s.setIndex a).fb = s.fb := rfl
@[simp] theorem State.setIndex_mem (a : Word) : (s.setIndex a).mem = s.mem := rfl
@[simp] theorem State.setIndex_out (a : Word) : (s.setIndex a).out = s.out := rfl
@[simp] theorem State.setIndex_cfg (a : Word) : (s.setIndex a).cfg = s.cfg := rfl
@[simp] theorem State.setIndex_script (a : Word) : (s.setIndex a).script = s.script := rfl
@[simp] theorem State.setIndex_turn (a : Word) : (s.setIndex a).turn = s.turn := rfl

/-! `setDelay` -/

@[simp] theorem State.setDelay_v (b : Byte) : (s.setDelay b).v = s.v := rfl
@[simp] theorem State.setDelay_pc (b : Byte) : (s.setDelay b).pc = s.pc := rfl
@[simp] theorem State.setDelay_i (b : Byte) : (s.setDelay b).i = s.i := rfl
@[simp] theorem State.setDelay_stack (b : Byte) : (s.setDelay b).stack = s.stack := rfl
@[simp] theorem State.setDelay_sp (b : Byte) : (s.setDelay b).sp = s.sp := rfl
@[simp] theorem State.setDelay_dt (b : Byte) : (s.setDelay b).dt = b := rfl
@[simp] theorem State.setDelay_st (b : Byte) : (s.setDelay b).st = s.st := rfl
@[simp] theorem State.setDelay_fb (b : Byte) : (s.setDelay b).fb = s.fb := rfl
@[simp] theorem State.setDelay_mem (b : Byte) : (s.setDelay b).mem = s.mem := rfl
@[simp] theorem State.setDelay_out (b : Byte) : (s.setDelay b).out = s.out := rfl
@[simp] theorem State.setDelay_cfg (b : Byte) : (s.setDelay b).cfg = s.cfg := rfl
@[simp] theorem State.setDelay_script (b : Byte) : (s.setDelay b).script = s.script := rfl
@[simp] theorem State.setDelay_turn (b : Byte) : (s.setDelay b).turn = s.turn := rfl

/-! `setSound` -/

@[simp] theorem State.setSound_v (b : Byte) : (s.setSound b).v = s.v := rfl
@[simp] theorem State.setSound_pc (b : Byte) : (s.setSound b).pc = s.pc := rfl
@[simp] theorem State.setSound_i (b : Byte) : (s.setSound b).i = s.i := rfl
@[simp] theorem State.setSound_stack (b : Byte) : (s.setSound b).stack = s.stack := rfl
@[simp] theorem State.setSound_sp (b : Byte) : (s.setSound b).sp = s.sp := rfl
@[simp] theorem State.setSound_dt (b : Byte) : (s.setSound b).dt = s.dt := rfl
@[simp] theorem State.setSound_st (b : Byte) : (s.setSound b).st = b := rfl
@[simp] theorem State.setSound_fb (b : Byte) : (s.setSound b).fb = s.fb := rfl
@[simp] theorem State.setSound_mem (b : Byte) : (s.setSound b).mem = s.mem := rfl
@[simp] theorem State.setSound_out (b : Byte) : (s.setSound b).out = s.out := rfl
@[simp] theorem State.setSound_cfg (b : Byte) : (s.setSound b).cfg = s.cfg := rfl
@[simp] theorem State.setSound_script (b : Byte) : (s.setSound b).script = s.script := rfl
@[simp] theorem State.setSound_turn (b : Byte) : (s.setSound b).turn = s.turn := rfl

/-! `jump` -/

@[simp] theorem State.jump_v (a : Word) : (s.jump a).v = s.v := rfl
@[simp] theorem State.jump_pc (a : Word) : (s.jump a).pc = a := rfl
@[simp] theorem State.jump_i (a : Word) : (s.jump a).i = s.i := rfl
@[simp] theorem State.jump_stack (a : Word) : (s.jump a).stack = s.stack := rfl
@[simp] theorem State.jump_sp (a : Word) : (s.jump a).sp = s.sp := rfl
@[simp] theorem State.jump_dt (a : Word) : (s.jump a).dt = s.dt := rfl
@[simp] theorem State.jump_st (a : Word) : (s.jump a).st = s.st := rfl
@[simp] theorem State.jump_fb (a : Word) : (s.jump a).fb = s.fb := rfl
@[simp] theorem State.jump_mem (a : Word) : (s.jump a).mem = s.mem := rfl
@[simp] theorem State.jump_out (a : Word) : (s.jump a).out = s.out := rfl
@[simp] theorem State.jump_cfg (a : Word) : (s.jump a).cfg = s.cfg := rfl
@[simp] theorem State.jump_script (a : Word) : (s.jump a).script = s.script := rfl
@[simp] theorem State.jump_turn (a : Word) : (s.jump a).turn = s.turn := rfl

/-! `advance` -/

@[simp] theorem State.advance_v : s.advance.v = s.v := rfl
@[simp] theorem State.advance_pc : s.advance.pc = s.pc + 2 := rfl
@[simp] theorem State.advance_i : s.advance.i = s.i := rfl
@[simp] theorem State.advance_stack : s.advance.stack = s.stack := rfl
@[simp] theorem State.advance_sp : s.advance.sp = s.sp := rfl
@[simp] theorem State.advance_dt : s.advance.dt = s.dt := rfl
@[simp] theorem State.advance_st : s.advance.st = s.st := rfl
@[simp] theorem State.advance_fb : s.advance.fb = s.fb := rfl
@[simp] theorem State.advance_mem : s.advance.mem = s.mem := rfl
@[simp] theorem State.advance_out : s.advance.out = s.out := rfl
@[simp] theorem State.advance_cfg : s.advance.cfg = s.cfg := rfl
@[simp] theorem State.advance_script : s.advance.script = s.script := rfl
@[simp] theorem State.advance_turn : s.advance.turn = s.turn := rfl

/-! `skipIf` -/

@[simp] theorem State.skipIf_v (c : Bool) : (s.skipIf c).v = s.v := rfl
@[simp] theorem State.skipIf_pc (c : Bool) : (s.skipIf c).pc = if c then s.pc + 4 else s.pc + 2 := rfl
@[simp] theorem State.skipIf_i (c : Bool) : (s.skipIf c).i = s.i := rfl
@[simp] theorem State.skipIf_stack (c : Bool) : (s.skipIf c).stack = s.stack := rfl
@[simp] theorem State.skipIf_sp (c : Bool) : (s.skipIf c).sp = s.sp := rfl
@[simp] theorem State.skipIf_dt (c : Bool) : (s.skipIf c).dt = s.dt := rfl
@[simp] theorem State.skipIf_st (c : Bool) : (s.skipIf c).st = s.st := rfl
@[simp] theorem State.skipIf_fb (c : Bool) : (s.skipIf c).fb = s.fb := rfl
@[simp] theorem State.skipIf_mem (c : Bool) : (s.skipIf c).mem = s.mem := rfl
@[simp] theorem State.skipIf_out (c : Bool) : (s.skipIf c).out = s.out := rfl
@[simp] theorem State.skipIf_cfg (c : Bool) : (s.skipIf c).cfg = s.cfg := rfl
@[simp] theorem State.skipIf_script (c : Bool) : (s.skipIf c).script = s.script := rfl
@[simp] theorem State.skipIf_turn (c : Bool) : (s.skipIf c).turn = s.turn := rfl

/-! `raise` -/

@[simp] theorem State.raise_v (c : Cause) : (s.raise c).v = s.v := rfl
@[simp] theorem State.raise_pc (c : Cause) : (s.raise c).pc = s.pc := rfl
@[simp] theorem State.raise_i (c : Cause) : (s.raise c).i = s.i := rfl
@[simp] theorem State.raise_stack (c : Cause) : (s.raise c).stack = s.stack := rfl
@[simp] theorem State.raise_sp (c : Cause) : (s.raise c).sp = s.sp := rfl
@[simp] theorem State.raise_dt (c : Cause) : (s.raise c).dt = s.dt := rfl
@[simp] theorem State.raise_st (c : Cause) : (s.raise c).st = s.st := rfl
@[simp] theorem State.raise_fb (c : Cause) : (s.raise c).fb = s.fb := rfl
@[simp] theorem State.raise_mem (c : Cause) : (s.raise c).mem = s.mem := rfl
@[simp] theorem State.raise_out (c : Cause) : (s.raise c).out = { s.out with diag := s.out.diag.mark c } := rfl
@[simp] theorem State.raise_cfg (c : Cause) : (s.raise c).cfg = s.cfg := rfl
@[simp] theorem State.raise_script (c : Cause) : (s.raise c).script = s.script := rfl
@[simp] theorem State.raise_turn (c : Cause) : (s.raise c).turn = s.turn := rfl

/-! `requestRedraw` -/

@[simp] theorem State.requestRedraw_v : s.requestRedraw.v = s.v := rfl
@[simp] theorem State.requestRedraw_pc : s.requestRedraw.pc = s.pc := rfl
@[simp] theorem State.requestRedraw_i : s.requestRedraw.i = s.i := rfl
@[simp] theorem State.requestRedraw_stack : s.requestRedraw.stack = s.stack := rfl
@[simp] theorem State.requestRedraw_sp : s.requestRedraw.sp = s.sp := rfl
@[simp] theorem State.requestRedraw_dt : s.requestRedraw.dt = s.dt := rfl
@[simp] theorem State.requestRedraw_st : s.requestRedraw.st = s.st := rfl
@[simp] theorem State.requestRedraw_fb : s.requestRedraw.fb = s.fb := rfl
@[simp] theorem State.requestRedraw_mem : s.requestRedraw.mem = s.mem := rfl
@[simp] theorem State.requestRedraw_out : s.requestRedraw.out = { s.out with redraw := true } := rfl
@[simp] theorem State.requestRedraw_cfg : s.requestRedraw.cfg = s.cfg := rfl
@[simp] theorem State.requestRedraw_script : s.requestRedraw.script = s.script := rfl
@[simp] theorem State.requestRedraw_turn : s.requestRedraw.turn = s.turn := rfl

/-! `takeKeyEvent` -/

@[simp] theorem State.takeKeyEvent_v : s.takeKeyEvent.v = s.v := rfl
@[simp] theorem State.takeKeyEvent_pc : s.takeKeyEvent.pc = s.pc := rfl
@[simp] theorem State.takeKeyEvent_i : s.takeKeyEvent.i = s.i := rfl
@[simp] theorem State.takeKeyEvent_stack : s.takeKeyEvent.stack = s.stack := rfl
@[simp] theorem State.takeKeyEvent_sp : s.takeKeyEvent.sp = s.sp := rfl
@[simp] theorem State.takeKeyEvent_dt : s.takeKeyEvent.dt = s.dt := rfl
@[simp] theorem State.takeKeyEvent_st : s.takeKeyEvent.st = s.st := rfl
@[simp] theorem State.takeKeyEvent_fb : s.takeKeyEvent.fb = s.fb := rfl
@[simp] theorem State.takeKeyEvent_mem : s.takeKeyEvent.mem = s.mem := rfl
@[simp] theorem State.takeKeyEvent_out : s.takeKeyEvent.out = { s.out with keyEventTaken := true } := rfl
@[simp] theorem State.takeKeyEvent_cfg : s.takeKeyEvent.cfg = s.cfg := rfl
@[simp] theorem State.takeKeyEvent_script : s.takeKeyEvent.script = s.script := rfl
@[simp] theorem State.takeKeyEvent_turn : s.takeKeyEvent.turn = s.turn := rfl

/-! `takeRngByte` -/

@[simp] theorem State.takeRngByte_v : s.takeRngByte.v = s.v := rfl
@[simp] theorem State.takeRngByte_pc : s.takeRngByte.pc = s.pc := rfl
@[simp] theorem State.takeRngByte_i : s.takeRngByte.i = s.i := rfl
@[simp] theorem State.takeRngByte_stack : s.takeRngByte.stack = s.stack := rfl
@[simp] theorem State.takeRngByte_sp : s.takeRngByte.sp = s.sp := rfl
@[simp] theorem State.takeRngByte_dt : s.takeRngByte.dt = s.dt := rfl
@[simp] theorem State.takeRngByte_st : s.takeRngByte.st = s.st := rfl
@[simp] theorem State.takeRngByte_fb : s.takeRngByte.fb = s.fb := rfl
@[simp] theorem State.takeRngByte_mem : s.takeRngByte.mem = s.mem := rfl
@[simp] theorem State.takeRngByte_out : s.takeRngByte.out = { s.out with rngTaken := true } := rfl
@[simp] theorem State.takeRngByte_cfg : s.takeRngByte.cfg = s.cfg := rfl
@[simp] theorem State.takeRngByte_script : s.takeRngByte.script = s.script := rfl
@[simp] theorem State.takeRngByte_turn : s.takeRngByte.turn = s.turn := rfl

/-! `storeByte` -/

@[simp] theorem State.storeByte_v (a : Nat) (b : Byte) : (s.storeByte a b).v = s.v := rfl
@[simp] theorem State.storeByte_pc (a : Nat) (b : Byte) : (s.storeByte a b).pc = s.pc := rfl
@[simp] theorem State.storeByte_i (a : Nat) (b : Byte) : (s.storeByte a b).i = s.i := rfl
@[simp] theorem State.storeByte_stack (a : Nat) (b : Byte) : (s.storeByte a b).stack = s.stack := rfl
@[simp] theorem State.storeByte_sp (a : Nat) (b : Byte) : (s.storeByte a b).sp = s.sp := rfl
@[simp] theorem State.storeByte_dt (a : Nat) (b : Byte) : (s.storeByte a b).dt = s.dt := rfl
@[simp] theorem State.storeByte_st (a : Nat) (b : Byte) : (s.storeByte a b).st = s.st := rfl
@[simp] theorem State.storeByte_fb (a : Nat) (b : Byte) : (s.storeByte a b).fb = s.fb := rfl
@[simp] theorem State.storeByte_mem (a : Nat) (b : Byte) : (s.storeByte a b).mem = s.mem.write s.cfg.font (effectiveAddress a) b := rfl
@[simp] theorem State.storeByte_out (a : Nat) (b : Byte) : (s.storeByte a b).out = s.out := rfl
@[simp] theorem State.storeByte_cfg (a : Nat) (b : Byte) : (s.storeByte a b).cfg = s.cfg := rfl
@[simp] theorem State.storeByte_script (a : Nat) (b : Byte) : (s.storeByte a b).script = s.script := rfl
@[simp] theorem State.storeByte_turn (a : Nat) (b : Byte) : (s.storeByte a b).turn = s.turn := rfl

/-! `push` -/

@[simp] theorem State.push_v (a : Word) : (s.push a).v = s.v := rfl
@[simp] theorem State.push_pc (a : Word) : (s.push a).pc = s.pc := rfl
@[simp] theorem State.push_i (a : Word) : (s.push a).i = s.i := rfl
@[simp] theorem State.push_stack (a : Word) : (s.push a).stack = s.stack.setIfInBounds s.sp.val a := rfl
@[simp] theorem State.push_sp (a : Word) : (s.push a).sp = Fin.ofNat 65 (s.sp.val + 1) := rfl
@[simp] theorem State.push_dt (a : Word) : (s.push a).dt = s.dt := rfl
@[simp] theorem State.push_st (a : Word) : (s.push a).st = s.st := rfl
@[simp] theorem State.push_fb (a : Word) : (s.push a).fb = s.fb := rfl
@[simp] theorem State.push_mem (a : Word) : (s.push a).mem = s.mem := rfl
@[simp] theorem State.push_out (a : Word) : (s.push a).out = s.out := rfl
@[simp] theorem State.push_cfg (a : Word) : (s.push a).cfg = s.cfg := rfl
@[simp] theorem State.push_script (a : Word) : (s.push a).script = s.script := rfl
@[simp] theorem State.push_turn (a : Word) : (s.push a).turn = s.turn := rfl

/-! `pop` -/

@[simp] theorem State.pop_v : s.pop.v = s.v := rfl
@[simp] theorem State.pop_pc : s.pop.pc = s.pc := rfl
@[simp] theorem State.pop_i : s.pop.i = s.i := rfl
@[simp] theorem State.pop_stack : s.pop.stack = s.stack := rfl
@[simp] theorem State.pop_sp : s.pop.sp = Fin.ofNat 65 (s.sp.val - 1) := rfl
@[simp] theorem State.pop_dt : s.pop.dt = s.dt := rfl
@[simp] theorem State.pop_st : s.pop.st = s.st := rfl
@[simp] theorem State.pop_fb : s.pop.fb = s.fb := rfl
@[simp] theorem State.pop_mem : s.pop.mem = s.mem := rfl
@[simp] theorem State.pop_out : s.pop.out = s.out := rfl
@[simp] theorem State.pop_cfg : s.pop.cfg = s.cfg := rfl
@[simp] theorem State.pop_script : s.pop.script = s.script := rfl
@[simp] theorem State.pop_turn : s.pop.turn = s.turn := rfl

/-! `togglePixel` -/

@[simp] theorem State.togglePixel_v (row col : Nat) : (s.togglePixel row col).v = s.v := rfl
@[simp] theorem State.togglePixel_pc (row col : Nat) : (s.togglePixel row col).pc = s.pc := rfl
@[simp] theorem State.togglePixel_i (row col : Nat) : (s.togglePixel row col).i = s.i := rfl
@[simp] theorem State.togglePixel_stack (row col : Nat) : (s.togglePixel row col).stack = s.stack := rfl
@[simp] theorem State.togglePixel_sp (row col : Nat) : (s.togglePixel row col).sp = s.sp := rfl
@[simp] theorem State.togglePixel_dt (row col : Nat) : (s.togglePixel row col).dt = s.dt := rfl
@[simp] theorem State.togglePixel_st (row col : Nat) : (s.togglePixel row col).st = s.st := rfl
@[simp] theorem State.togglePixel_fb (row col : Nat) : (s.togglePixel row col).fb = s.fb.setIfInBounds row ((s.pixelRow row).setIfInBounds col (!s.pixel row col)) := rfl
@[simp] theorem State.togglePixel_mem (row col : Nat) : (s.togglePixel row col).mem = s.mem := rfl
@[simp] theorem State.togglePixel_out (row col : Nat) : (s.togglePixel row col).out = s.out := rfl
@[simp] theorem State.togglePixel_cfg (row col : Nat) : (s.togglePixel row col).cfg = s.cfg := rfl
@[simp] theorem State.togglePixel_script (row col : Nat) : (s.togglePixel row col).script = s.script := rfl
@[simp] theorem State.togglePixel_turn (row col : Nat) : (s.togglePixel row col).turn = s.turn := rfl

/-! `clearScreen` -/

@[simp] theorem State.clearScreen_v : s.clearScreen.v = s.v := rfl
@[simp] theorem State.clearScreen_pc : s.clearScreen.pc = s.pc := rfl
@[simp] theorem State.clearScreen_i : s.clearScreen.i = s.i := rfl
@[simp] theorem State.clearScreen_stack : s.clearScreen.stack = s.stack := rfl
@[simp] theorem State.clearScreen_sp : s.clearScreen.sp = s.sp := rfl
@[simp] theorem State.clearScreen_dt : s.clearScreen.dt = s.dt := rfl
@[simp] theorem State.clearScreen_st : s.clearScreen.st = s.st := rfl
@[simp] theorem State.clearScreen_fb : s.clearScreen.fb = Vector.replicate 32 blankRow := rfl
@[simp] theorem State.clearScreen_mem : s.clearScreen.mem = s.mem := rfl
@[simp] theorem State.clearScreen_out : s.clearScreen.out = s.out := rfl
@[simp] theorem State.clearScreen_cfg : s.clearScreen.cfg = s.cfg := rfl
@[simp] theorem State.clearScreen_script : s.clearScreen.script = s.script := rfl
@[simp] theorem State.clearScreen_turn : s.clearScreen.turn = s.turn := rfl

/-! `ticks` -/

@[simp] theorem State.ticks_v (n : Nat) : (s.ticks n).v = s.v := rfl
@[simp] theorem State.ticks_pc (n : Nat) : (s.ticks n).pc = s.pc := rfl
@[simp] theorem State.ticks_i (n : Nat) : (s.ticks n).i = s.i := rfl
@[simp] theorem State.ticks_stack (n : Nat) : (s.ticks n).stack = s.stack := rfl
@[simp] theorem State.ticks_sp (n : Nat) : (s.ticks n).sp = s.sp := rfl
@[simp] theorem State.ticks_dt (n : Nat) : (s.ticks n).dt = tickTimes n s.dt := rfl
@[simp] theorem State.ticks_st (n : Nat) : (s.ticks n).st = tickTimes n s.st := rfl
@[simp] theorem State.ticks_fb (n : Nat) : (s.ticks n).fb = s.fb := rfl
@[simp] theorem State.ticks_mem (n : Nat) : (s.ticks n).mem = s.mem := rfl
@[simp] theorem State.ticks_out (n : Nat) : (s.ticks n).out = s.out := rfl
@[simp] theorem State.ticks_cfg (n : Nat) : (s.ticks n).cfg = s.cfg := rfl
@[simp] theorem State.ticks_script (n : Nat) : (s.ticks n).script = s.script := rfl
@[simp] theorem State.ticks_turn (n : Nat) : (s.ticks n).turn = s.turn := rfl

/-! `begin` -/

@[simp] theorem State.begin_v : s.begin.v = s.v := rfl
@[simp] theorem State.begin_pc : s.begin.pc = s.pc := rfl
@[simp] theorem State.begin_i : s.begin.i = s.i := rfl
@[simp] theorem State.begin_stack : s.begin.stack = s.stack := rfl
@[simp] theorem State.begin_sp : s.begin.sp = s.sp := rfl
@[simp] theorem State.begin_dt : s.begin.dt = tickTimes s.turnNow.ticks s.dt := rfl
@[simp] theorem State.begin_st : s.begin.st = tickTimes s.turnNow.ticks s.st := rfl
@[simp] theorem State.begin_fb : s.begin.fb = s.fb := rfl
@[simp] theorem State.begin_mem : s.begin.mem = s.mem := rfl
@[simp] theorem State.begin_out : s.begin.out = Outputs.cleared := rfl
@[simp] theorem State.begin_cfg : s.begin.cfg = s.cfg := rfl
@[simp] theorem State.begin_script : s.begin.script = s.script := rfl
@[simp] theorem State.begin_turn : s.begin.turn = s.turn := rfl

/-! `endTurn` -/

@[simp] theorem State.endTurn_v : s.endTurn.v = s.v := rfl
@[simp] theorem State.endTurn_pc : s.endTurn.pc = s.pc := rfl
@[simp] theorem State.endTurn_i : s.endTurn.i = s.i := rfl
@[simp] theorem State.endTurn_stack : s.endTurn.stack = s.stack := rfl
@[simp] theorem State.endTurn_sp : s.endTurn.sp = s.sp := rfl
@[simp] theorem State.endTurn_dt : s.endTurn.dt = s.dt := rfl
@[simp] theorem State.endTurn_st : s.endTurn.st = s.st := rfl
@[simp] theorem State.endTurn_fb : s.endTurn.fb = s.fb := rfl
@[simp] theorem State.endTurn_mem : s.endTurn.mem = s.mem := rfl
@[simp] theorem State.endTurn_out : s.endTurn.out = s.out := rfl
@[simp] theorem State.endTurn_cfg : s.endTurn.cfg = s.cfg := rfl
@[simp] theorem State.endTurn_script : s.endTurn.script = s.script.tail := rfl
@[simp] theorem State.endTurn_turn : s.endTurn.turn = s.turn + 1 := rfl

/-! `noteAccess`: only the outputs, and of them only ADDR_WRAP. -/

@[simp] theorem State.noteAccess_v (a : Nat) : (s.noteAccess a).v = s.v := by
  unfold State.noteAccess; split <;> rfl
@[simp] theorem State.noteAccess_pc (a : Nat) : (s.noteAccess a).pc = s.pc := by
  unfold State.noteAccess; split <;> rfl
@[simp] theorem State.noteAccess_i (a : Nat) : (s.noteAccess a).i = s.i := by
  unfold State.noteAccess; split <;> rfl
@[simp] theorem State.noteAccess_stack (a : Nat) : (s.noteAccess a).stack = s.stack := by
  unfold State.noteAccess; split <;> rfl
@[simp] theorem State.noteAccess_sp (a : Nat) : (s.noteAccess a).sp = s.sp := by
  unfold State.noteAccess; split <;> rfl
@[simp] theorem State.noteAccess_dt (a : Nat) : (s.noteAccess a).dt = s.dt := by
  unfold State.noteAccess; split <;> rfl
@[simp] theorem State.noteAccess_st (a : Nat) : (s.noteAccess a).st = s.st := by
  unfold State.noteAccess; split <;> rfl
@[simp] theorem State.noteAccess_fb (a : Nat) : (s.noteAccess a).fb = s.fb := by
  unfold State.noteAccess; split <;> rfl
@[simp] theorem State.noteAccess_mem (a : Nat) : (s.noteAccess a).mem = s.mem := by
  unfold State.noteAccess; split <;> rfl
theorem State.noteAccess_out (a : Nat) :
    (s.noteAccess a).out = { s.out with diag := { s.out.diag with addrWrap := s.out.diag.addrWrap || accessWraps a } } := by
  unfold State.noteAccess
  split <;> rename_i h <;> simp [h, Diag.mark]
@[simp] theorem State.noteAccess_cfg (a : Nat) : (s.noteAccess a).cfg = s.cfg := by
  unfold State.noteAccess; split <;> rfl
@[simp] theorem State.noteAccess_script (a : Nat) : (s.noteAccess a).script = s.script := by
  unfold State.noteAccess; split <;> rfl
@[simp] theorem State.noteAccess_turn (a : Nat) : (s.noteAccess a).turn = s.turn := by
  unfold State.noteAccess; split <;> rfl

end Sys2Proof.Machine
end

