-- ==== Sys2Proof/Laws/Ops.lean ====
section
/-! SUPPORT. What each named operation does to what the state reads as: registers, bytes, pixels, stack entries, outputs;
and that each keeps the invariant. -/

namespace Sys2Proof.Machine

/-! A view of the state depends on its own fields only. -/

theorem State.reg_of_v {s t : State} (h : t.v = s.v) (r : Reg) : t.reg r = s.reg r := by simp only [State.reg, h]

theorem State.byteAt_of_mem {s t : State} (h : t.mem = s.mem) (hc : t.cfg = s.cfg) (a : Nat) :
    t.byteAt a = s.byteAt a := by simp only [State.byteAt, h, hc]

theorem State.stackEntry_of_stack {s t : State} (h : t.stack = s.stack) (k : Nat) :
    t.stackEntry k = s.stackEntry k := by simp only [State.stackEntry, h]

theorem State.pixel_of_fb {s t : State} (h : t.fb = s.fb) (row col : Nat) : t.pixel row col = s.pixel row col := by
  simp only [State.pixel, State.pixelRow, h]

theorem State.inputs_of_environment {s t : State} (h : t.script = s.script) (ht : t.turn = s.turn) :
    t.inputs = s.inputs := by simp only [State.inputs, State.turnNow, h, ht]

/-! Registers. -/

theorem State.reg_setReg (s : State) (x r : Reg) (b : Byte) : (s.setReg x b).reg r = if r = x then b else s.reg r := by
  simp only [State.reg, State.setReg_v, Fin.getElem_fin, Vector.getElem_set]
  by_cases h : r = x
  · simp [h]
  · simp [h, Fin.val_ne_of_ne (Ne.symm h)]

@[simp] theorem State.reg_setReg_self (s : State) (x : Reg) (b : Byte) : (s.setReg x b).reg x = b := by
  simp [State.reg_setReg]

theorem State.reg_setRegFlag (s : State) (x r : Reg) (b : Byte) (c : Bool) :
    (s.setRegFlag x b c).reg r = if r = regF then flagByte c else if r = x then b else s.reg r := by
  simp only [State.setRegFlag, State.reg_setReg]

/-! Memory. -/

theorem State.byteAt_storeByte (s : State) (raw a : Nat) (b : Byte) :
    (s.storeByte raw b).byteAt a = if a % 4096 = raw % 4096 then b else s.byteAt a := by
  simp only [State.byteAt, State.storeByte_mem, State.storeByte_cfg, Memory.read_write, effectiveAddress]

theorem State.byteAt_mod (s : State) (a : Nat) : s.byteAt (a % 4096) = s.byteAt a := by
  simp [State.byteAt, effectiveAddress]

@[simp] theorem State.byteAt_noteAccess (s : State) (raw a : Nat) : (s.noteAccess raw).byteAt a = s.byteAt a :=
  State.byteAt_of_mem (by simp) (by simp) a

theorem State.byteAt_memWrite (s : State) (raw a : Nat) (b : Byte) :
    (s.memWrite raw b).byteAt a = if a % 4096 = raw % 4096 then b else s.byteAt a := by
  simp only [State.memWrite, State.byteAt_noteAccess, State.byteAt_storeByte]

/-! The call stack. -/

theorem State.stackEntry_push (s : State) (a : Word) (h : s.sp.val < 64) (k : Nat) :
    (s.push a).stackEntry k = if k = s.sp.val then a else s.stackEntry k := by
  simp only [State.stackEntry, State.push_stack, Vector.getElem?_setIfInBounds]
  grind

theorem State.push_sp_val (s : State) (a : Word) (h : s.sp.val < 64) : (s.push a).sp.val = s.sp.val + 1 := by
  simp only [State.push_sp, Fin.val_ofNat]
  omega

theorem State.pop_sp_val (s : State) : s.pop.sp.val = s.sp.val - 1 := by
  simp only [State.pop_sp, Fin.val_ofNat]
  omega

/-! The frame buffer. -/

theorem State.pixel_togglePixel (s : State) {row col : Nat} (hr : row < 32) (hc : col < 64) (r c : Nat) :
    (s.togglePixel row col).pixel r c = (s.pixel r c != decide (r = row ∧ c = col)) := by
  simp only [State.pixel, State.pixelRow, State.togglePixel_fb, Vector.getElem?_setIfInBounds, hr, if_true]
  by_cases h : row = r
  · subst h
    simp only [if_true, Option.getD_some, Vector.getElem?_setIfInBounds, hc]
    by_cases h' : col = c
    · subst h'
      simp
    · simp [h', Ne.symm h']
  · simp [h, Ne.symm h]

@[simp] theorem State.pixel_clearScreen (s : State) (row col : Nat) : s.clearScreen.pixel row col = false := by
  simp only [State.pixel, State.pixelRow, State.clearScreen_fb, blankRow, Vector.getElem?_replicate]
  split <;> simp [Vector.getElem?_replicate] <;> split <;> rfl

/-- Screens that read alike at every pixel are the same data. -/
theorem State.fb_of_pixel {s t : State} (h : ∀ row col, t.pixel row col = s.pixel row col) : t.fb = s.fb := by
  apply Vector.ext
  intro row hr
  apply Vector.ext
  intro col hc
  have := h row col
  simpa [State.pixel, State.pixelRow, hr, hc] using this

/-! The invariant: only a store touches it. -/

theorem Inv.of_mem {s t : State} (hs : Inv s) (h : t.mem = s.mem) (hc : t.cfg = s.cfg) : Inv t := by
  unfold Inv at *
  rw [h, hc]
  exact hs

theorem Inv.storeByte {s : State} (hs : Inv s) (raw : Nat) (b : Byte) : Inv (s.storeByte raw b) :=
  Memory.write_wf hs (Nat.mod_lt _ (by decide))

theorem Inv.memWrite {s : State} (hs : Inv s) (raw : Nat) (b : Byte) : Inv (s.memWrite raw b) :=
  (hs.storeByte raw b).of_mem (by simp [State.memWrite]) (by simp [State.memWrite])

/-! The fetch. -/

theorem State.fetch_word (s : State) :
    s.fetch.1 = wordOfBytes (s.byteAt s.pc.toNat) (s.byteAt (s.pc.toNat + 1)) := by
  simp [State.fetch, State.memRead]

theorem State.fetch_state (s : State) :
    s.fetch.2 = { s with out := { s.out with
      diag := { s.out.diag with addrWrap := s.out.diag.addrWrap || decide (4095 ≤ s.pc.toNat) } } } := by
  simp only [State.fetch, State.memRead, State.noteAccess, accessWraps]
  by_cases h1 : 4096 ≤ s.pc.toNat
  · have h2 : 4095 ≤ s.pc.toNat := by omega
    have h3 : 4096 ≤ s.pc.toNat + 1 := by omega
    simp [h1, h2, h3, State.raise, Diag.mark]
  · by_cases h2 : 4095 ≤ s.pc.toNat
    · have h3 : 4096 ≤ s.pc.toNat + 1 := by omega
      simp [h1, h2, h3, State.raise, Diag.mark]
    · have h3 : ¬4096 ≤ s.pc.toNat + 1 := by omega
      simp [h1, h2, h3]

/-! The program counter and the operand forms, as the numbers they are. -/

theorem State.advance_pc_toNat (s : State) : s.advance.pc.toNat = (s.pc.toNat + 2) % 65536 := by
  simp [State.advance, State.jump]

theorem State.skipIf_pc_toNat (s : State) (b : Bool) :
    (s.skipIf b).pc.toNat = if b then (s.pc.toNat + 4) % 65536 else (s.pc.toNat + 2) % 65536 := by
  cases b <;> simp [State.skipIf, State.jump]

theorem addressOperand_toNat {nnn : Nat} (h : nnn < 4096) : (addressOperand nnn).toNat = nnn := by
  simp only [addressOperand, BitVec.toNat_ofNat]
  omega

/-- The sum of JP VF, NNN does not wrap (41_control_transfer.md R88). -/
theorem State.offsetTarget_toNat (s : State) {nnn : Nat} (h : nnn < 4096) :
    (s.offsetTarget nnn).toNat = nnn + (s.jumpOffset nnn).toNat := by
  have hb := (s.jumpOffset nnn).isLt
  have ha := addressOperand_toNat h
  simp only [State.offsetTarget, BitVec.toNat_add, BitVec.toNat_setWidth, ha]
  omega

theorem State.indexPlus_toNat (s : State) (x : Reg) :
    (s.indexPlus x).toNat = (s.i.toNat + (s.reg x).toNat) % 65536 := by
  simp [State.indexPlus]

theorem State.glyphAddress_toNat (s : State) (x : Reg) : (s.glyphAddress x).toNat = (s.reg x).toNat * 5 := by
  have := (s.reg x).isLt
  simp only [State.glyphAddress, BitVec.toNat_ofNat]
  omega

theorem State.indexAfter_toNat (s : State) (x : Reg) : (s.indexAfter x).toNat = (s.i.toNat + x.val + 1) % 65536 := by
  simp [State.indexAfter]

/-- A register's value names a held key exactly when some key has that value and its bit is 1 (R140). -/
theorem State.keyPressed_iff (s : State) (vx : Byte) :
    s.keyPressed vx = true ↔ ∃ k : Key, k.val = vx.toNat ∧ s.inputs.keyHeld.getLsbD k.val = true := by
  simp only [State.keyPressed, Bool.and_eq_true, decide_eq_true_eq]
  constructor
  · rintro ⟨h, hb⟩
    exact ⟨⟨vx.toNat, by omega⟩, rfl, hb⟩
  · rintro ⟨k, hk, hb⟩
    rw [← hk]
    exact ⟨by omega, hb⟩

theorem flagByte_toNat (b : Bool) : (flagByte b).toNat = if b then 1 else 0 := by cases b <;> rfl

/-! The timers. -/

theorem tickTimer_toNat (t : Byte) : (tickTimer t).toNat = t.toNat - 1 := by
  unfold tickTimer
  split
  · rw [BitVec.toNat_sub_of_le]
    · rfl
    · simpa [BitVec.le_def] using by omega
  · omega

theorem tickTimes_toNat (n : Nat) (t : Byte) : (tickTimes n t).toNat = t.toNat - n := by
  induction n generalizing t with
  | zero => rfl
  | succ n ih =>
    rw [tickTimes, ih, tickTimer_toNat]
    omega

end Sys2Proof.Machine
end

