-- ==== Sys2Proof/Laws/Frame.lean ====
section
/-! SUPPORT. The small lemmas of the frame: from fields and from operations, weakened, and after one more write of `pc`. -/

namespace Sys2Proof.Machine

variable {s t u : State} {changed more : List Part}

/-- Outputs that read alike in every part are the same outputs. -/
theorem Outputs.ext_flags {a b : Outputs} (hr : a.redraw = b.redraw) (hd : ∀ c, a.diag.flag c = b.diag.flag c)
    (hk : a.keyEventTaken = b.keyEventTaken) (hg : a.rngTaken = b.rngTaken) : a = b := by
  obtain ⟨_, ⟨_, _, _, _⟩, _, _⟩ := a
  obtain ⟨_, ⟨_, _, _, _⟩, _, _⟩ := b
  have h1 := hd .invalidInstruction
  have h2 := hd .addrWrap
  have h3 := hd .stackOverflow
  have h4 := hd .stackUnderflow
  simp_all [Diag.flag]

/-- A raised cause sets its own flag and no other. -/
theorem Diag.flag_mark (d : Diag) (c e : Cause) : (d.mark c).flag e = (decide (e = c) || d.flag e) := by
  cases c <;> cases e <;> simp [Diag.mark, Diag.flag]

/-- The bytes at `I` and up are the named ones. -/
theorem mem_bytesAtIndex {n : Nat} {p : Part} :
    p ∈ bytesAtIndex s n ↔ ∃ k, k < n ∧ p = .byte (effectiveAddress (s.indexRaw k)) := by
  simp [bytesAtIndex, eq_comm]

/-- `V[0]`..`V[X]` are the named registers. -/
theorem reg_mem_regsUpTo {x r : Reg} : .reg r ∈ regsUpTo x ↔ r ≤ x := by
  simp only [regsUpTo, List.mem_map, List.mem_range, Part.reg.injEq]
  constructor
  · rintro ⟨k, hk, rfl⟩
    simp only [Fin.le_def, Fin.val_ofNat]
    omega
  · intro h
    exact ⟨r.val, Nat.lt_succ_of_le h, by ext; simp⟩

/-- A frame from equal fields: what is not named is enough. -/
theorem KeepsAllBut.of_fields (hr : ∀ r, .reg r ∉ changed → t.reg r = s.reg r) (hpc : .pc ∉ changed → t.pc = s.pc)
    (hi : .index ∉ changed → t.i = s.i) (he : ∀ k, .entry k ∉ changed → t.stackEntry k = s.stackEntry k)
    (hsp : .sp ∉ changed → t.sp = s.sp) (hd : .delay ∉ changed → t.dt = s.dt) (hst : .sound ∉ changed → t.st = s.st)
    (hf : .screen ∉ changed → t.fb = s.fb)
    (hb : ∀ a, .byte (effectiveAddress a) ∉ changed → t.byteAt a = s.byteAt a)
    (hre : .redraw ∉ changed → t.out.redraw = s.out.redraw)
    (hfl : ∀ c, .flag c ∉ changed → t.out.diag.flag c = s.out.diag.flag c)
    (hk : .keyEventTaken ∉ changed → t.out.keyEventTaken = s.out.keyEventTaken)
    (hg : .rngTaken ∉ changed → t.out.rngTaken = s.out.rngTaken)
    (hc : t.cfg = s.cfg) (hs : t.script = s.script) (ht : t.turn = s.turn) : KeepsAllBut changed s t := by
  refine ⟨fun p hp => ?_, hc, hs, ht⟩
  cases p with
  | reg r => exact hr r hp
  | pc => exact hpc hp
  | index => exact hi hp
  | entry k => exact he k hp
  | sp => exact hsp hp
  | delay => exact hd hp
  | sound => exact hst hp
  | screen => exact State.pixel_of_fb (hf hp)
  | byte ea => exact fun a ha => hb a (ha ▸ hp)
  | redraw => exact hre hp
  | flag c => exact hfl c hp
  | keyEventTaken => exact hk hp
  | rngTaken => exact hg hp

theorem KeepsAllBut.refl (changed : List Part) (s : State) : KeepsAllBut changed s s :=
  .of_fields (fun _ _ => rfl) (fun _ => rfl) (fun _ => rfl) (fun _ _ => rfl) (fun _ => rfl) (fun _ => rfl) (fun _ => rfl)
    (fun _ => rfl) (fun _ _ => rfl) (fun _ => rfl) (fun _ _ => rfl) (fun _ => rfl) (fun _ => rfl) rfl rfl rfl

/-- A frame that names more says less. -/
theorem KeepsAllBut.mono (h : KeepsAllBut changed s t) (hsub : ∀ p ∈ changed, p ∈ more) : KeepsAllBut more s t :=
  ⟨fun p hp => h.1 p fun hc => hp (hsub p hc), h.2⟩

/-- Two frames one after another name what either names. -/
theorem KeepsAllBut.trans (h : KeepsAllBut changed s t) (g : KeepsAllBut changed t u) : KeepsAllBut changed s u := by
  refine .of_fields ?_ ?_ ?_ ?_ ?_ ?_ ?_ ?_ ?_ ?_ ?_ ?_ ?_ (g.2.1.trans h.2.1) (g.2.2.1.trans h.2.2.1)
    (g.2.2.2.trans h.2.2.2)
  case refine_8 =>
    intro hp
    have h1 : Part.Same s t .screen := h.1 .screen hp
    have h2 : Part.Same t u .screen := g.1 .screen hp
    exact State.fb_of_pixel fun row col => (h2 row col).trans (h1 row col)
  case refine_9 => exact fun a hp => (g.1 (.byte _) hp a rfl).trans (h.1 (.byte _) hp a rfl)
  case refine_1 => exact fun r hp => (g.1 (.reg r) hp).trans (h.1 (.reg r) hp)
  case refine_2 => exact fun hp => (g.1 .pc hp).trans (h.1 .pc hp)
  case refine_3 => exact fun hp => (g.1 .index hp).trans (h.1 .index hp)
  case refine_4 => exact fun k hp => (g.1 (.entry k) hp).trans (h.1 (.entry k) hp)
  case refine_5 => exact fun hp => (g.1 .sp hp).trans (h.1 .sp hp)
  case refine_6 => exact fun hp => (g.1 .delay hp).trans (h.1 .delay hp)
  case refine_7 => exact fun hp => (g.1 .sound hp).trans (h.1 .sound hp)
  case refine_10 => exact fun hp => (g.1 .redraw hp).trans (h.1 .redraw hp)
  case refine_11 => exact fun c hp => (g.1 (.flag c) hp).trans (h.1 (.flag c) hp)
  case refine_12 => exact fun hp => (g.1 .keyEventTaken hp).trans (h.1 .keyEventTaken hp)
  case refine_13 => exact fun hp => (g.1 .rngTaken hp).trans (h.1 .rngTaken hp)

/-- A frame after one more write of `pc`. -/
theorem KeepsAllBut.jump (h : KeepsAllBut changed s t) (a : Word) : KeepsAllBut (.pc :: changed) s (t.jump a) := by
  refine ⟨fun p hp => ?_, h.2⟩
  have hq := h.1 p fun hc => hp (List.mem_cons_of_mem _ hc)
  cases p
  case pc => exact absurd List.mem_cons_self hp
  all_goals exact hq

theorem KeepsAllBut.advance (h : KeepsAllBut changed s t) : KeepsAllBut (.pc :: changed) s t.advance := h.jump _

/-- A byte store changes the byte at its effective address alone. -/
theorem State.storeByte_frame (s : State) (raw : Nat) (b : Byte) :
    KeepsAllBut [.byte (effectiveAddress raw)] s (s.storeByte raw b) := by
  apply KeepsAllBut.of_fields <;> simp [State.reg, State.stackEntry, State.byteAt_storeByte]
  intro a ha h
  exact absurd h ha

/-- What goes with an access changes ADDR_WRAP alone. -/
theorem State.noteAccess_frame (s : State) (raw : Nat) : KeepsAllBut [.flag .addrWrap] s (s.noteAccess raw) := by
  unfold State.noteAccess
  split
  · apply KeepsAllBut.of_fields <;> simp [State.reg, State.stackEntry, State.byteAt, Diag.flag_mark]
    exact fun c hc h => absurd h hc
  · exact .refl _ s

end Sys2Proof.Machine
end

