-- ==== Sys2Proof/Laws/Loops.lean ====
section
/-! SUPPORT. The loops of the register store, the register load and the sprite draw: what they leave, and what they write. -/

namespace Sys2Proof.Machine

/-- What every turn of a loop leaves alone, the loop leaves alone. -/
theorem foldl_leaves {α β σ : Type} {f : σ → α → σ} (π : σ → β) (h : ∀ t k, π (f t k) = π t) (s : σ) (l : List α) :
    π (l.foldl f s) = π s := by
  induction l generalizing s with
  | nil => rfl
  | cons k rest ih => rw [List.foldl_cons, ih, h]

/-- What every turn of a loop keeps, the loop keeps. -/
theorem foldl_keeps {α σ : Type} {f : σ → α → σ} {P : σ → Prop} (h : ∀ t k, P t → P (f t k)) {s : σ} (hs : P s)
    (l : List α) : P (l.foldl f s) := by
  induction l generalizing s with
  | nil => exact hs
  | cons k rest ih => exact ih (h _ _ hs)

/-- ADDR_WRAP after the first `n` accesses at `I` and up. -/
def wrapsBefore (s : State) (n : Nat) : Bool := decide (∃ k, k < n ∧ 4096 ≤ s.indexRaw k)

theorem wrapsBefore_succ (s : State) (n : Nat) : wrapsBefore s (n + 1) = (wrapsBefore s n || accessWraps (s.indexRaw n)) := by
  unfold wrapsBefore accessWraps
  rw [← Bool.decide_or]
  congr 1
  apply propext
  constructor
  · rintro ⟨k, hk, h⟩
    obtain hk | rfl := Nat.lt_succ_iff_lt_or_eq.mp hk
    · exact .inl ⟨k, hk, h⟩
    · exact .inr h
  · rintro (⟨k, hk, h⟩ | h)
    · exact ⟨k, by omega, h⟩
    · exact ⟨n, by omega, h⟩

/-- With at least one access, the last one decides. -/
theorem wrapsBefore_last (s : State) (n : Nat) : wrapsBefore s (n + 1) = decide (4096 ≤ s.i.toNat + n) := by
  unfold wrapsBefore State.indexRaw
  congr 1
  apply propext
  constructor
  · rintro ⟨k, hk, h⟩
    omega
  · intro h
    exact ⟨n, by omega, h⟩

/-! The register store (45_index_memory.md R124). -/

/-- The first `n` turns of the store. -/
def storeRegs (s : State) (n : Nat) : State := (List.range n).foldl State.storeReg s

theorem storeRegs_succ (s : State) (n : Nat) : storeRegs s (n + 1) = (storeRegs s n).storeReg n := by
  simp [storeRegs, List.range_succ]

theorem storeRegs_leaves {β : Type} (π : State → β) (h : ∀ t a b, π (State.memWrite t a b) = π t) (s : State) (n : Nat) :
    π (storeRegs s n) = π s := foldl_leaves π (fun t _ => h t _ _) s _

@[simp] theorem storeRegs_v (s : State) (n : Nat) : (storeRegs s n).v = s.v :=
  storeRegs_leaves State.v (by simp [State.memWrite]) s n
@[simp] theorem storeRegs_pc (s : State) (n : Nat) : (storeRegs s n).pc = s.pc :=
  storeRegs_leaves State.pc (by simp [State.memWrite]) s n
@[simp] theorem storeRegs_i (s : State) (n : Nat) : (storeRegs s n).i = s.i :=
  storeRegs_leaves State.i (by simp [State.memWrite]) s n
@[simp] theorem storeRegs_stack (s : State) (n : Nat) : (storeRegs s n).stack = s.stack :=
  storeRegs_leaves State.stack (by simp [State.memWrite]) s n
@[simp] theorem storeRegs_sp (s : State) (n : Nat) : (storeRegs s n).sp = s.sp :=
  storeRegs_leaves State.sp (by simp [State.memWrite]) s n
@[simp] theorem storeRegs_dt (s : State) (n : Nat) : (storeRegs s n).dt = s.dt :=
  storeRegs_leaves State.dt (by simp [State.memWrite]) s n
@[simp] theorem storeRegs_st (s : State) (n : Nat) : (storeRegs s n).st = s.st :=
  storeRegs_leaves State.st (by simp [State.memWrite]) s n
@[simp] theorem storeRegs_fb (s : State) (n : Nat) : (storeRegs s n).fb = s.fb :=
  storeRegs_leaves State.fb (by simp [State.memWrite]) s n
@[simp] theorem storeRegs_cfg (s : State) (n : Nat) : (storeRegs s n).cfg = s.cfg :=
  storeRegs_leaves State.cfg (by simp [State.memWrite]) s n
@[simp] theorem storeRegs_script (s : State) (n : Nat) : (storeRegs s n).script = s.script :=
  storeRegs_leaves State.script (by simp [State.memWrite]) s n
@[simp] theorem storeRegs_turn (s : State) (n : Nat) : (storeRegs s n).turn = s.turn :=
  storeRegs_leaves State.turn (by simp [State.memWrite]) s n

theorem storeRegs_out (s : State) (n : Nat) : (storeRegs s n).out =
    { s.out with diag := { s.out.diag with addrWrap := s.out.diag.addrWrap || wrapsBefore s n } } := by
  induction n with
  | zero => simp [storeRegs, wrapsBefore]
  | succ n ih =>
    rw [storeRegs_succ, State.storeReg, State.memWrite, State.noteAccess_out, State.storeByte_out, ih, wrapsBefore_succ]
    simp [State.indexRaw, Bool.or_assoc]

theorem byteAt_storeRegs_succ (s : State) (n a : Nat) : (storeRegs s (n + 1)).byteAt a =
    if a % 4096 = s.indexRaw n % 4096 then s.reg (Fin.ofNat 16 n) else (storeRegs s n).byteAt a := by
  rw [storeRegs_succ, State.storeReg, State.byteAt_memWrite, State.reg_of_v (storeRegs_v s n),
    show (storeRegs s n).indexRaw n = s.indexRaw n by simp [State.indexRaw]]

/-- A byte at none of the addresses stored to is as before. -/
theorem byteAt_storeRegs_outside (s : State) (n a : Nat) (h : ∀ k, k < n → a % 4096 ≠ s.indexRaw k % 4096) :
    (storeRegs s n).byteAt a = s.byteAt a := by
  induction n with
  | zero => rfl
  | succ n ih => rw [byteAt_storeRegs_succ, if_neg (h n (by omega)), ih fun k hk => h k (by omega)]

/-- The byte at `I + k` is register `k`: no two of at most 16 addresses are the same (20_memory.md R36). -/
theorem byteAt_storeRegs (s : State) {n k : Nat} (hn : n ≤ 16) (hk : k < n) :
    (storeRegs s n).byteAt (s.indexRaw k) = s.reg (Fin.ofNat 16 k) := by
  induction n with
  | zero => omega
  | succ n ih =>
    rw [byteAt_storeRegs_succ]
    by_cases h : k = n
    · simp [h]
    · rw [if_neg, ih (by omega) (by omega)]
      simp only [State.indexRaw]
      omega

/-! The register load (45_index_memory.md R125). -/

/-- The first `n` turns of the load. -/
def loadRegs (s : State) (n : Nat) : State := (List.range n).foldl State.loadReg s

theorem loadRegs_succ (s : State) (n : Nat) : loadRegs s (n + 1) = (loadRegs s n).loadReg n := by
  simp [loadRegs, List.range_succ]

theorem loadRegs_leaves {β : Type} (π : State → β) (h : ∀ t a r b, π (State.setReg (State.noteAccess t a) r b) = π t)
    (s : State) (n : Nat) : π (loadRegs s n) = π s := foldl_leaves π (fun t _ => h t _ _ _) s _

@[simp] theorem loadRegs_pc (s : State) (n : Nat) : (loadRegs s n).pc = s.pc := loadRegs_leaves State.pc (by simp) s n
@[simp] theorem loadRegs_i (s : State) (n : Nat) : (loadRegs s n).i = s.i := loadRegs_leaves State.i (by simp) s n
@[simp] theorem loadRegs_stack (s : State) (n : Nat) : (loadRegs s n).stack = s.stack :=
  loadRegs_leaves State.stack (by simp) s n
@[simp] theorem loadRegs_sp (s : State) (n : Nat) : (loadRegs s n).sp = s.sp := loadRegs_leaves State.sp (by simp) s n
@[simp] theorem loadRegs_dt (s : State) (n : Nat) : (loadRegs s n).dt = s.dt := loadRegs_leaves State.dt (by simp) s n
@[simp] theorem loadRegs_st (s : State) (n : Nat) : (loadRegs s n).st = s.st := loadRegs_leaves State.st (by simp) s n
@[simp] theorem loadRegs_fb (s : State) (n : Nat) : (loadRegs s n).fb = s.fb := loadRegs_leaves State.fb (by simp) s n
@[simp] theorem loadRegs_mem (s : State) (n : Nat) : (loadRegs s n).mem = s.mem := loadRegs_leaves State.mem (by simp) s n
@[simp] theorem loadRegs_cfg (s : State) (n : Nat) : (loadRegs s n).cfg = s.cfg := loadRegs_leaves State.cfg (by simp) s n
@[simp] theorem loadRegs_script (s : State) (n : Nat) : (loadRegs s n).script = s.script :=
  loadRegs_leaves State.script (by simp) s n
@[simp] theorem loadRegs_turn (s : State) (n : Nat) : (loadRegs s n).turn = s.turn :=
  loadRegs_leaves State.turn (by simp) s n

theorem loadRegs_out (s : State) (n : Nat) : (loadRegs s n).out =
    { s.out with diag := { s.out.diag with addrWrap := s.out.diag.addrWrap || wrapsBefore s n } } := by
  induction n with
  | zero => simp [loadRegs, wrapsBefore]
  | succ n ih =>
    rw [loadRegs_succ, State.loadReg, State.setReg_out, State.memRead, State.noteAccess_out, ih, wrapsBefore_succ]
    simp [State.indexRaw, Bool.or_assoc]

/-- Register `r` after the first `n` turns: the byte at `I + r` when `r < n`, else as before. -/
theorem reg_loadRegs (s : State) {n : Nat} (hn : n ≤ 16) (r : Reg) :
    (loadRegs s n).reg r = if r.val < n then s.byteAt (s.indexRaw r.val) else s.reg r := by
  induction n with
  | zero => simp [loadRegs]
  | succ n ih =>
    rw [loadRegs_succ, State.loadReg, State.reg_setReg, State.memRead,
      State.reg_of_v (State.noteAccess_v (loadRegs s n) _), ih (by omega)]
    have hb : (loadRegs s n).byteAt ((loadRegs s n).indexRaw n) = s.byteAt (s.indexRaw n) := by
      rw [State.byteAt_of_mem (loadRegs_mem s n) (loadRegs_cfg s n)]
      simp [State.indexRaw]
    have hr : r = Fin.ofNat 16 n ↔ r.val = n := by
      rw [Fin.ext_iff, Fin.val_ofNat]
      omega
    by_cases h : r.val = n
    · simp only [hr, h, if_true, hb, Nat.lt_succ_self]
    · by_cases h' : r.val < n
      · simp only [hr, h, if_false, h', if_true, show r.val < n + 1 by omega]
      · simp only [hr, h, if_false, h', show ¬r.val < n + 1 by omega]

/-! The sprite draw (46_display.md R131). -/

theorem drawPixel_leaves {β : Type} (π : State → β) (hr : ∀ t r b, π (State.setReg t r b) = π t)
    (ht : ∀ t row col, π (State.togglePixel t row col) = π t) (s : State) (row col : Nat) (bit : Bool) :
    π (s.drawPixel row col bit) = π s := by
  unfold State.drawPixel
  split
  · rw [ht]
    split
    · exact hr _ _ _
    · rfl
  · rfl

theorem reg_drawPixel_of_ne (s : State) (row col : Nat) (bit : Bool) {r : Reg} (h : r ≠ regF) :
    (s.drawPixel row col bit).reg r = s.reg r := by
  unfold State.drawPixel
  split
  · rw [State.reg_of_v (State.togglePixel_v _ _ _)]
    split
    · rw [State.reg_setReg, if_neg h]
    · rfl
  · rfl

theorem regF_drawPixel (s : State) (row col : Nat) (bit : Bool) :
    (s.drawPixel row col bit).reg regF = if bit && s.pixel row col then 1 else s.reg regF := by
  unfold State.drawPixel
  cases bit
  · simp
  · simp only [if_true, Bool.true_and, State.reg_of_v (State.togglePixel_v _ _ _)]
    split
    · simp [flagByte]
    · rfl

theorem pixel_drawPixel (s : State) {row col : Nat} (hr : row < 32) (hc : col < 64) (bit : Bool) (r c : Nat) :
    (s.drawPixel row col bit).pixel r c = (s.pixel r c != (bit && decide (r = row ∧ c = col))) := by
  unfold State.drawPixel
  cases bit
  · simp
  · simp only [if_true, Bool.true_and, State.pixel_togglePixel _ hr hc]
    congr 1
    split
    · exact State.pixel_of_fb (by simp) r c
    · rfl

/-- The first `k` bits of a sprite row. -/
def drawBits (s : State) (row x0 : Nat) (b : Byte) (k : Nat) : State :=
  (List.range k).foldl (fun t c => t.drawPixel row (x0 + c) (spriteBit b c)) s

theorem drawBits_succ (s : State) (row x0 : Nat) (b : Byte) (k : Nat) :
    drawBits s row x0 b (k + 1) = (drawBits s row x0 b k).drawPixel row (x0 + k) (spriteBit b k) := by
  simp [drawBits, List.range_succ]

theorem drawBits_leaves {β : Type} (π : State → β) (hr : ∀ t r b, π (State.setReg t r b) = π t)
    (ht : ∀ t row col, π (State.togglePixel t row col) = π t) (s : State) (row x0 : Nat) (b : Byte) (k : Nat) :
    π (drawBits s row x0 b k) = π s := foldl_leaves π (fun t _ => drawPixel_leaves π hr ht t _ _ _) s _

theorem reg_drawBits_of_ne (s : State) (row x0 : Nat) (b : Byte) (k : Nat) {r : Reg} (h : r ≠ regF) :
    (drawBits s row x0 b k).reg r = s.reg r :=
  foldl_leaves (fun t => State.reg t r) (fun t _ => reg_drawPixel_of_ne t _ _ _ h) s _

theorem pixel_drawBits (s : State) {row x0 k : Nat} (hr : row < 32) (hk : x0 + k ≤ 64) (b : Byte) (r c : Nat) :
    (drawBits s row x0 b k).pixel r c =
      (s.pixel r c != decide (r = row ∧ ∃ q, q < k ∧ c = x0 + q ∧ spriteBit b q = true)) := by
  induction k with
  | zero => simp [drawBits]
  | succ k ih =>
    rw [drawBits_succ, pixel_drawPixel _ hr (by omega), ih (by omega)]
    by_cases hrow : r = row
    · subst hrow
      by_cases hc : c = x0 + k
      · subst hc
        have hn : ¬∃ q, q < k ∧ x0 + k = x0 + q ∧ spriteBit b q = true := by
          rintro ⟨q, hq, h, -⟩
          omega
        have hs : (∃ q, q < k + 1 ∧ x0 + k = x0 + q ∧ spriteBit b q = true) ↔ spriteBit b k = true :=
          ⟨fun ⟨q, hq, h, hb⟩ => by rwa [show k = q by omega], fun h => ⟨k, by omega, rfl, h⟩⟩
        simp only [true_and, hn, hs]
        simp
      · have hs : (∃ q, q < k + 1 ∧ c = x0 + q ∧ spriteBit b q = true) ↔
            ∃ q, q < k ∧ c = x0 + q ∧ spriteBit b q = true :=
          ⟨fun ⟨q, hq, h, hb⟩ => ⟨q, by omega, h, hb⟩, fun ⟨q, hq, h, hb⟩ => ⟨q, by omega, h, hb⟩⟩
        simp only [hs]
        simp [hc]
    · simp [hrow]

theorem regF_drawBits (s : State) {row x0 k : Nat} (hr : row < 32) (hk : x0 + k ≤ 64) (b : Byte) :
    (drawBits s row x0 b k).reg regF =
      if ∃ q, q < k ∧ spriteBit b q = true ∧ s.pixel row (x0 + q) = true then 1 else s.reg regF := by
  induction k with
  | zero => simp [drawBits]
  | succ k ih =>
    have hp : (drawBits s row x0 b k).pixel row (x0 + k) = s.pixel row (x0 + k) := by
      rw [pixel_drawBits s hr (by omega)]
      simp
    rw [drawBits_succ, regF_drawPixel, ih (by omega), hp]
    have hs : (∃ q, q < k + 1 ∧ spriteBit b q = true ∧ s.pixel row (x0 + q) = true) ↔
        (spriteBit b k = true ∧ s.pixel row (x0 + k) = true) ∨
          ∃ q, q < k ∧ spriteBit b q = true ∧ s.pixel row (x0 + q) = true := by
      constructor
      · rintro ⟨q, hq, h⟩
        obtain hq | rfl := Nat.lt_succ_iff_lt_or_eq.mp hq
        · exact .inr ⟨q, hq, h⟩
        · exact .inl h
      · rintro (h | ⟨q, hq, h⟩)
        · exact ⟨k, by omega, h⟩
        · exact ⟨q, by omega, h⟩
    simp only [hs, Bool.and_eq_true]
    by_cases h1 : spriteBit b k = true ∧ s.pixel row (x0 + k) = true
    · rw [if_pos h1, if_pos (.inl h1)]
    · simp only [h1, if_false, false_or]

/-- The first `m` rows of a sprite. -/
def drawRows (s : State) (x0 y0 m : Nat) : State := (List.range m).foldl (fun t r => t.drawSpriteRow x0 y0 r) s

theorem drawRows_succ (s : State) (x0 y0 m : Nat) :
    drawRows s x0 y0 (m + 1) = (drawRows s x0 y0 m).drawSpriteRow x0 y0 m := by
  simp [drawRows, List.range_succ]

theorem drawSpriteRow_eq (s : State) (x0 y0 r : Nat) : s.drawSpriteRow x0 y0 r =
    drawBits (s.noteAccess (s.indexRaw r)) (y0 + r) x0 (s.byteAt (s.indexRaw r)) (columnsDrawn x0) := rfl

theorem drawRows_leaves {β : Type} (π : State → β) (hr : ∀ t r b, π (State.setReg t r b) = π t)
    (ht : ∀ t row col, π (State.togglePixel t row col) = π t) (hn : ∀ t a, π (State.noteAccess t a) = π t)
    (s : State) (x0 y0 m : Nat) : π (drawRows s x0 y0 m) = π s :=
  foldl_leaves π (fun t _ => (drawBits_leaves π hr ht _ _ _ _ _).trans (hn t _)) s _

@[simp] theorem drawRows_pc (s : State) (x0 y0 m : Nat) : (drawRows s x0 y0 m).pc = s.pc :=
  drawRows_leaves State.pc (by simp) (by simp) (by simp) s _ _ _
@[simp] theorem drawRows_i (s : State) (x0 y0 m : Nat) : (drawRows s x0 y0 m).i = s.i :=
  drawRows_leaves State.i (by simp) (by simp) (by simp) s _ _ _
@[simp] theorem drawRows_stack (s : State) (x0 y0 m : Nat) : (drawRows s x0 y0 m).stack = s.stack :=
  drawRows_leaves State.stack (by simp) (by simp) (by simp) s _ _ _
@[simp] theorem drawRows_sp (s : State) (x0 y0 m : Nat) : (drawRows s x0 y0 m).sp = s.sp :=
  drawRows_leaves State.sp (by simp) (by simp) (by simp) s _ _ _
@[simp] theorem drawRows_dt (s : State) (x0 y0 m : Nat) : (drawRows s x0 y0 m).dt = s.dt :=
  drawRows_leaves State.dt (by simp) (by simp) (by simp) s _ _ _
@[simp] theorem drawRows_st (s : State) (x0 y0 m : Nat) : (drawRows s x0 y0 m).st = s.st :=
  drawRows_leaves State.st (by simp) (by simp) (by simp) s _ _ _
@[simp] theorem drawRows_mem (s : State) (x0 y0 m : Nat) : (drawRows s x0 y0 m).mem = s.mem :=
  drawRows_leaves State.mem (by simp) (by simp) (by simp) s _ _ _
@[simp] theorem drawRows_cfg (s : State) (x0 y0 m : Nat) : (drawRows s x0 y0 m).cfg = s.cfg :=
  drawRows_leaves State.cfg (by simp) (by simp) (by simp) s _ _ _
@[simp] theorem drawRows_script (s : State) (x0 y0 m : Nat) : (drawRows s x0 y0 m).script = s.script :=
  drawRows_leaves State.script (by simp) (by simp) (by simp) s _ _ _
@[simp] theorem drawRows_turn (s : State) (x0 y0 m : Nat) : (drawRows s x0 y0 m).turn = s.turn :=
  drawRows_leaves State.turn (by simp) (by simp) (by simp) s _ _ _

theorem drawRows_out (s : State) (x0 y0 m : Nat) : (drawRows s x0 y0 m).out =
    { s.out with diag := { s.out.diag with addrWrap := s.out.diag.addrWrap || wrapsBefore s m } } := by
  induction m with
  | zero => simp [drawRows, wrapsBefore]
  | succ m ih =>
    rw [drawRows_succ, drawSpriteRow_eq, drawBits_leaves State.out (by simp) (by simp), State.noteAccess_out, ih,
      wrapsBefore_succ]
    simp [State.indexRaw, Bool.or_assoc]

theorem reg_drawRows_of_ne (s : State) (x0 y0 m : Nat) {r : Reg} (h : r ≠ regF) :
    (drawRows s x0 y0 m).reg r = s.reg r :=
  foldl_leaves (fun t => State.reg t r)
    (fun t _ => (reg_drawBits_of_ne _ _ _ _ _ h).trans (State.reg_of_v (State.noteAccess_v t _) r)) s _

theorem columnsDrawn_le (x0 : Nat) (h : x0 < 64) : x0 + columnsDrawn x0 ≤ 64 := by
  unfold columnsDrawn
  omega

theorem pixel_drawRows (s : State) {x0 y0 m : Nat} (hx : x0 < 64) (hm : y0 + m ≤ 32) (r c : Nat) :
    (drawRows s x0 y0 m).pixel r c = (s.pixel r c != decide (∃ j, j < m ∧ r = y0 + j ∧
      ∃ q, q < columnsDrawn x0 ∧ c = x0 + q ∧ spriteBit (s.byteAt (s.indexRaw j)) q = true)) := by
  induction m with
  | zero => simp [drawRows]
  | succ m ih =>
    rw [drawRows_succ, drawSpriteRow_eq, pixel_drawBits _ (by omega) (columnsDrawn_le x0 hx),
      State.pixel_of_fb (State.noteAccess_fb _ _), ih (by omega),
      State.byteAt_of_mem (drawRows_mem s x0 y0 m) (drawRows_cfg s x0 y0 m)]
    simp only [State.indexRaw, drawRows_i]
    by_cases hr : r = y0 + m
    · have hn : ¬∃ j, j < m ∧ r = y0 + j ∧
          ∃ q, q < columnsDrawn x0 ∧ c = x0 + q ∧ spriteBit (s.byteAt (s.i.toNat + j)) q = true := by
        rintro ⟨j, hj, h, -⟩
        omega
      have hs : (∃ j, j < m + 1 ∧ r = y0 + j ∧
          ∃ q, q < columnsDrawn x0 ∧ c = x0 + q ∧ spriteBit (s.byteAt (s.i.toNat + j)) q = true) ↔
          (r = y0 + m ∧ ∃ q, q < columnsDrawn x0 ∧ c = x0 + q ∧ spriteBit (s.byteAt (s.i.toNat + m)) q = true) :=
        ⟨fun ⟨j, hj, h, hq⟩ => by
          obtain rfl : j = m := by omega
          exact ⟨h, hq⟩, fun ⟨h, hq⟩ => ⟨m, by omega, h, hq⟩⟩
      simp only [hn, hs]
      simp
    · have hs : (∃ j, j < m + 1 ∧ r = y0 + j ∧
          ∃ q, q < columnsDrawn x0 ∧ c = x0 + q ∧ spriteBit (s.byteAt (s.i.toNat + j)) q = true) ↔
          ∃ j, j < m ∧ r = y0 + j ∧
          ∃ q, q < columnsDrawn x0 ∧ c = x0 + q ∧ spriteBit (s.byteAt (s.i.toNat + j)) q = true := by
        constructor
        · rintro ⟨j, hj, h, hq⟩
          obtain hj | rfl := Nat.lt_succ_iff_lt_or_eq.mp hj
          · exact ⟨j, hj, h, hq⟩
          · exact absurd h hr
        · rintro ⟨j, hj, h⟩
          exact ⟨j, by omega, h⟩
      simp only [hs, hr, false_and, decide_false, Bool.bne_false]
      exact congrArg _ (decide_eq_decide.mpr Iff.rfl)

theorem regF_drawRows (s : State) {x0 y0 m : Nat} (hx : x0 < 64) (hm : y0 + m ≤ 32) :
    (drawRows s x0 y0 m).reg regF =
      if ∃ j, j < m ∧ ∃ q, q < columnsDrawn x0 ∧ spriteBit (s.byteAt (s.indexRaw j)) q = true ∧
        s.pixel (y0 + j) (x0 + q) = true then 1 else s.reg regF := by
  induction m with
  | zero => simp [drawRows]
  | succ m ih =>
    have hp : ∀ c, (drawRows s x0 y0 m).pixel (y0 + m) c = s.pixel (y0 + m) c := by
      intro c
      rw [pixel_drawRows s hx (by omega)]
      simp
    rw [drawRows_succ, drawSpriteRow_eq, regF_drawBits _ (by omega) (columnsDrawn_le x0 hx),
      State.reg_of_v (State.noteAccess_v _ _), ih (by omega),
      State.byteAt_of_mem (drawRows_mem s x0 y0 m) (drawRows_cfg s x0 y0 m)]
    simp only [State.pixel_of_fb (State.noteAccess_fb _ _), hp, State.indexRaw, drawRows_i]
    have hs : (∃ j, j < m + 1 ∧ ∃ q, q < columnsDrawn x0 ∧ spriteBit (s.byteAt (s.i.toNat + j)) q = true ∧
        s.pixel (y0 + j) (x0 + q) = true) ↔
        (∃ q, q < columnsDrawn x0 ∧ spriteBit (s.byteAt (s.i.toNat + m)) q = true ∧ s.pixel (y0 + m) (x0 + q) = true) ∨
        ∃ j, j < m ∧ ∃ q, q < columnsDrawn x0 ∧ spriteBit (s.byteAt (s.i.toNat + j)) q = true ∧
          s.pixel (y0 + j) (x0 + q) = true := by
      constructor
      · rintro ⟨j, hj, h⟩
        obtain hj | rfl := Nat.lt_succ_iff_lt_or_eq.mp hj
        · exact .inr ⟨j, hj, h⟩
        · exact .inl h
      · rintro (h | ⟨j, hj, h⟩)
        · exact ⟨m, by omega, h⟩
        · exact ⟨j, by omega, h⟩
    simp only [hs]
    by_cases h1 : ∃ q, q < columnsDrawn x0 ∧ spriteBit (s.byteAt (s.i.toNat + m)) q = true ∧
        s.pixel (y0 + m) (x0 + q) = true
    · rw [if_pos h1, if_pos (.inl h1)]
    · simp only [h1, if_false, false_or]
      congr

end Sys2Proof.Machine
end

