-- ==== Sys2Proof/Laws/PerInstr.lean ====
section
/-! SUPPORT. Per instruction: the word the encoder makes of a well-formed instruction is a word of its own row of the opcode
map, `w AND mask = match` (30_encoding.md R55). -/

namespace Sys2Proof

/-- A word of format A masked by 0xF000 is its class. -/
theorem wordA_row {cls nnn : Nat} {m : Word} (hc : cls < 16) (hn : nnn < 4096) (hm : fieldClass m = cls)
    (hz : fieldX m = 0 ∧ fieldY m = 0 ∧ fieldN m = 0) : wordA cls nnn &&& 0xF000 = m := by
  apply word_ext
  · rw [fieldClass_and (by decide), fieldClass_toNat, wordA_toNat hc hn, hm]
    omega
  · rw [fieldX_and_zero (by decide), hz.1]
  · rw [fieldY_and_zero (by decide), hz.2.1]
  · rw [fieldN_and_zero (by decide), hz.2.2]

/-- A word of format XI masked by 0xF000 is its class. -/
theorem wordXI_row {cls nn : Nat} {m : Word} (x : Reg) (hc : cls < 16) (hn : nn < 256) (hm : fieldClass m = cls)
    (hz : fieldX m = 0 ∧ fieldY m = 0 ∧ fieldN m = 0) : wordXI cls x nn &&& 0xF000 = m := by
  apply word_ext
  · rw [fieldClass_and (by decide), fieldClass_toNat, wordXI_toNat x hc hn, hm]
    omega
  · rw [fieldX_and_zero (by decide), hz.1]
  · rw [fieldY_and_zero (by decide), hz.2.1]
  · rw [fieldN_and_zero (by decide), hz.2.2]

/-- A word of format XF masked by 0xF0FF is its class and its discriminant. -/
theorem wordXI_rowF {cls nn : Nat} {m : Word} (x : Reg) (hc : cls < 16) (hn : nn < 256) (hm : fieldClass m = cls)
    (hx : fieldX m = 0) (hd : (fieldY m).val = nn / 16 ∧ fieldN m = nn % 16) : wordXI cls x nn &&& 0xF0FF = m := by
  apply word_ext
  · rw [fieldClass_and (by decide), fieldClass_toNat, wordXI_toNat x hc hn, hm]
    omega
  · rw [fieldX_and_zero (by decide), hx]
  · apply Fin.ext
    rw [fieldY_and (by decide), fieldY_val, wordXI_toNat x hc hn, hd.1]
    omega
  · rw [fieldN_and (by decide), fieldN_toNat, wordXI_toNat x hc hn, hd.2]
    omega

/-- A word of format XY masked by 0xF000 is its class. -/
theorem wordXY_row {cls n : Nat} {m : Word} (x y : Reg) (hc : cls < 16) (hn : n < 16) (hm : fieldClass m = cls)
    (hz : fieldX m = 0 ∧ fieldY m = 0 ∧ fieldN m = 0) : wordXY cls x y n &&& 0xF000 = m := by
  apply word_ext
  · rw [fieldClass_and (by decide), fieldClass_toNat, wordXY_toNat x y hc hn, hm]
    omega
  · rw [fieldX_and_zero (by decide), hz.1]
  · rw [fieldY_and_zero (by decide), hz.2.1]
  · rw [fieldN_and_zero (by decide), hz.2.2]

/-- A word of format XY masked by 0xF00F is its class and its discriminant. -/
theorem wordXY_rowD {cls n : Nat} {m : Word} (x y : Reg) (hc : cls < 16) (hn : n < 16) (hm : fieldClass m = cls)
    (hz : fieldX m = 0 ∧ fieldY m = 0) (hd : fieldN m = n) : wordXY cls x y n &&& 0xF00F = m := by
  apply word_ext
  · rw [fieldClass_and (by decide), fieldClass_toNat, wordXY_toNat x y hc hn, hm]
    omega
  · rw [fieldX_and_zero (by decide), hz.1]
  · rw [fieldY_and_zero (by decide), hz.2]
  · rw [fieldN_and (by decide), fieldN_toNat, wordXY_toNat x y hc hn, hd]
    omega

/-- The word of a well-formed instruction lies in the instruction's row. -/
def Laws.EncodesItsRow.Statement (i : Instr) : Prop := i.wellFormed = true → encode i &&& i.row.2 = i.row.1

theorem Laws.EncodesItsRow.cls : Laws.EncodesItsRow.Statement (.cls) :=
  fun _ => by decide

theorem Laws.EncodesItsRow.ret : Laws.EncodesItsRow.Statement (.ret) :=
  fun _ => by decide

theorem Laws.EncodesItsRow.jp (nnn : Nat) : Laws.EncodesItsRow.Statement (.jp nnn) :=
  fun h => wordA_row (m := 0x1000) (by decide) (of_decide_eq_true h) (by decide) (by decide)

theorem Laws.EncodesItsRow.call (nnn : Nat) : Laws.EncodesItsRow.Statement (.call nnn) :=
  fun h => wordA_row (m := 0x2000) (by decide) (of_decide_eq_true h) (by decide) (by decide)

theorem Laws.EncodesItsRow.seVxNn (x : Reg) (nn : Byte) : Laws.EncodesItsRow.Statement (.seVxNn x nn) :=
  fun _ => wordXI_row (m := 0x3000) x (by decide) nn.isLt (by decide) (by decide)

theorem Laws.EncodesItsRow.sneVxNn (x : Reg) (nn : Byte) : Laws.EncodesItsRow.Statement (.sneVxNn x nn) :=
  fun _ => wordXI_row (m := 0x4000) x (by decide) nn.isLt (by decide) (by decide)

theorem Laws.EncodesItsRow.seVxVy (x y : Reg) : Laws.EncodesItsRow.Statement (.seVxVy x y) :=
  fun _ => wordXY_row (m := 0x5000) x y (by decide) (by decide) (by decide) (by decide)

theorem Laws.EncodesItsRow.ldVxNn (x : Reg) (nn : Byte) : Laws.EncodesItsRow.Statement (.ldVxNn x nn) :=
  fun _ => wordXI_row (m := 0x6000) x (by decide) nn.isLt (by decide) (by decide)

theorem Laws.EncodesItsRow.addVxNn (x : Reg) (nn : Byte) : Laws.EncodesItsRow.Statement (.addVxNn x nn) :=
  fun _ => wordXI_row (m := 0x7000) x (by decide) nn.isLt (by decide) (by decide)

theorem Laws.EncodesItsRow.ldVxVy (x y : Reg) : Laws.EncodesItsRow.Statement (.ldVxVy x y) :=
  fun _ => wordXY_rowD (m := 0x8000) x y (by decide) (by decide) (by decide) (by decide) (by decide)

theorem Laws.EncodesItsRow.orVxVy (x y : Reg) : Laws.EncodesItsRow.Statement (.orVxVy x y) :=
  fun _ => wordXY_rowD (m := 0x8001) x y (by decide) (by decide) (by decide) (by decide) (by decide)

theorem Laws.EncodesItsRow.andVxVy (x y : Reg) : Laws.EncodesItsRow.Statement (.andVxVy x y) :=
  fun _ => wordXY_rowD (m := 0x8002) x y (by decide) (by decide) (by decide) (by decide) (by decide)

theorem Laws.EncodesItsRow.xorVxVy (x y : Reg) : Laws.EncodesItsRow.Statement (.xorVxVy x y) :=
  fun _ => wordXY_rowD (m := 0x8003) x y (by decide) (by decide) (by decide) (by decide) (by decide)

theorem Laws.EncodesItsRow.addVxVy (x y : Reg) : Laws.EncodesItsRow.Statement (.addVxVy x y) :=
  fun _ => wordXY_rowD (m := 0x8004) x y (by decide) (by decide) (by decide) (by decide) (by decide)

theorem Laws.EncodesItsRow.subVxVy (x y : Reg) : Laws.EncodesItsRow.Statement (.subVxVy x y) :=
  fun _ => wordXY_rowD (m := 0x8005) x y (by decide) (by decide) (by decide) (by decide) (by decide)

theorem Laws.EncodesItsRow.shrVxVy (x y : Reg) : Laws.EncodesItsRow.Statement (.shrVxVy x y) :=
  fun _ => wordXY_rowD (m := 0x8006) x y (by decide) (by decide) (by decide) (by decide) (by decide)

theorem Laws.EncodesItsRow.subnVxVy (x y : Reg) : Laws.EncodesItsRow.Statement (.subnVxVy x y) :=
  fun _ => wordXY_rowD (m := 0x8007) x y (by decide) (by decide) (by decide) (by decide) (by decide)

theorem Laws.EncodesItsRow.shlVxVy (x y : Reg) : Laws.EncodesItsRow.Statement (.shlVxVy x y) :=
  fun _ => wordXY_rowD (m := 0x800E) x y (by decide) (by decide) (by decide) (by decide) (by decide)

theorem Laws.EncodesItsRow.sneVxVy (x y : Reg) : Laws.EncodesItsRow.Statement (.sneVxVy x y) :=
  fun _ => wordXY_row (m := 0x9000) x y (by decide) (by decide) (by decide) (by decide)

theorem Laws.EncodesItsRow.ldINnn (nnn : Nat) : Laws.EncodesItsRow.Statement (.ldINnn nnn) :=
  fun h => wordA_row (m := 0xA000) (by decide) (of_decide_eq_true h) (by decide) (by decide)

theorem Laws.EncodesItsRow.jpVfNnn (nnn : Nat) : Laws.EncodesItsRow.Statement (.jpVfNnn nnn) :=
  fun h => wordA_row (m := 0xB000) (by decide) (of_decide_eq_true h) (by decide) (by decide)

theorem Laws.EncodesItsRow.rndVxNn (x : Reg) (nn : Byte) : Laws.EncodesItsRow.Statement (.rndVxNn x nn) :=
  fun _ => wordXI_row (m := 0xC000) x (by decide) nn.isLt (by decide) (by decide)

theorem Laws.EncodesItsRow.drwVxVyN (x y : Reg) (n : Nat) : Laws.EncodesItsRow.Statement (.drwVxVyN x y n) :=
  fun h => wordXY_row (m := 0xD000) x y (by decide) (of_decide_eq_true h) (by decide) (by decide)

theorem Laws.EncodesItsRow.skpVx (x : Reg) : Laws.EncodesItsRow.Statement (.skpVx x) :=
  fun _ => wordXI_rowF (m := 0xE09E) x (by decide) (by decide) (by decide) (by decide) (by decide)

theorem Laws.EncodesItsRow.sknpVx (x : Reg) : Laws.EncodesItsRow.Statement (.sknpVx x) :=
  fun _ => wordXI_rowF (m := 0xE0A1) x (by decide) (by decide) (by decide) (by decide) (by decide)

theorem Laws.EncodesItsRow.ldVxDt (x : Reg) : Laws.EncodesItsRow.Statement (.ldVxDt x) :=
  fun _ => wordXI_rowF (m := 0xF007) x (by decide) (by decide) (by decide) (by decide) (by decide)

theorem Laws.EncodesItsRow.ldVxK (x : Reg) : Laws.EncodesItsRow.Statement (.ldVxK x) :=
  fun _ => wordXI_rowF (m := 0xF00A) x (by decide) (by decide) (by decide) (by decide) (by decide)

theorem Laws.EncodesItsRow.ldDtVx (x : Reg) : Laws.EncodesItsRow.Statement (.ldDtVx x) :=
  fun _ => wordXI_rowF (m := 0xF015) x (by decide) (by decide) (by decide) (by decide) (by decide)

theorem Laws.EncodesItsRow.ldStVx (x : Reg) : Laws.EncodesItsRow.Statement (.ldStVx x) :=
  fun _ => wordXI_rowF (m := 0xF018) x (by decide) (by decide) (by decide) (by decide) (by decide)

theorem Laws.EncodesItsRow.addIVx (x : Reg) : Laws.EncodesItsRow.Statement (.addIVx x) :=
  fun _ => wordXI_rowF (m := 0xF01E) x (by decide) (by decide) (by decide) (by decide) (by decide)

theorem Laws.EncodesItsRow.ldFVx (x : Reg) : Laws.EncodesItsRow.Statement (.ldFVx x) :=
  fun _ => wordXI_rowF (m := 0xF029) x (by decide) (by decide) (by decide) (by decide) (by decide)

theorem Laws.EncodesItsRow.ldBVx (x : Reg) : Laws.EncodesItsRow.Statement (.ldBVx x) :=
  fun _ => wordXI_rowF (m := 0xF033) x (by decide) (by decide) (by decide) (by decide) (by decide)

theorem Laws.EncodesItsRow.ldMemVx (x : Reg) : Laws.EncodesItsRow.Statement (.ldMemVx x) :=
  fun _ => wordXI_rowF (m := 0xF055) x (by decide) (by decide) (by decide) (by decide) (by decide)

theorem Laws.EncodesItsRow.ldVxMem (x : Reg) : Laws.EncodesItsRow.Statement (.ldVxMem x) :=
  fun _ => wordXI_rowF (m := 0xF065) x (by decide) (by decide) (by decide) (by decide) (by decide)

end Sys2Proof
end

