-- ==== Sys2Proof/Tests/Slice0.lean ====
section
/-! SUPPORT. Tests: ill-formed terms are refused, words written out from the encodings of 30_encoding.md decode to their
instructions, single steps of the vectors of 95_test_vectors.md (their names are in the comments), and for every statement
with hypotheses a state and operands that meet them. -/

namespace Sys2Proof.Tests

open Sys2Proof.Machine

/-! WellFormed: each check refuses a term that is no instruction, and lets the last value pass. -/

theorem test_jp_address_of_13_bits_is_refused : (Instr.jp 4096).wellFormed = false := by decide
theorem test_call_address_of_13_bits_is_refused : (Instr.call 4096).wellFormed = false := by decide
theorem test_ldINnn_address_of_13_bits_is_refused : (Instr.ldINnn 4096).wellFormed = false := by decide
theorem test_jpVfNnn_address_of_13_bits_is_refused : (Instr.jpVfNnn 4096).wellFormed = false := by decide
theorem test_drw_row_count_of_5_bits_is_refused : (Instr.drwVxVyN 0 0 16).wellFormed = false := by decide
theorem test_last_operands_are_well_formed :
    (Instr.jp 4095).wellFormed ∧ (Instr.call 4095).wellFormed ∧ (Instr.ldINnn 4095).wellFormed ∧
      (Instr.jpVfNnn 4095).wellFormed ∧ (Instr.drwVxVyN 15 15 15).wellFormed := by decide

/-! Decoding: the patterns of R55 with X = 0xA, Y = 0x5, N = 0x7, NN = 0x3C, NNN = 0xBCD, bit by bit. -/

theorem test_decode_class0 :
    decodeWord 0b0000000011100000 = .instr .cls ∧ decodeWord 0b0000000011101110 = .instr .ret ∧
      decodeWord 0b0000101010101110 = .instr .ret := by decide
theorem test_decode_addresses :
    decodeWord 0b0001101111001101 = .instr (.jp 0xBCD) ∧ decodeWord 0b0010101111001101 = .instr (.call 0xBCD) ∧
      decodeWord 0b1010101111001101 = .instr (.ldINnn 0xBCD) ∧
      decodeWord 0b1011101111001101 = .instr (.jpVfNnn 0xBCD) := by decide
theorem test_decode_immediates :
    decodeWord 0b0011101000111100 = .instr (.seVxNn 0xA 0x3C) ∧ decodeWord 0b0100101000111100 = .instr (.sneVxNn 0xA 0x3C) ∧
      decodeWord 0b0110101000111100 = .instr (.ldVxNn 0xA 0x3C) ∧
      decodeWord 0b0111101000111100 = .instr (.addVxNn 0xA 0x3C) ∧
      decodeWord 0b1100101000111100 = .instr (.rndVxNn 0xA 0x3C) := by decide
theorem test_decode_register_skips_ignore_the_low_nibble :
    decodeWord 0b0101101001011111 = .instr (.seVxVy 0xA 0x5) ∧
      decodeWord 0b1001101001010001 = .instr (.sneVxVy 0xA 0x5) := by decide
theorem test_decode_alu_low :
    decodeWord 0b1000101001010000 = .instr (.ldVxVy 0xA 0x5) ∧ decodeWord 0b1000101001010001 = .instr (.orVxVy 0xA 0x5) ∧
      decodeWord 0b1000101001010010 = .instr (.andVxVy 0xA 0x5) ∧
      decodeWord 0b1000101001010011 = .instr (.xorVxVy 0xA 0x5) := by decide
theorem test_decode_alu_high :
    decodeWord 0b1000101001010100 = .instr (.addVxVy 0xA 0x5) ∧ decodeWord 0b1000101001010101 = .instr (.subVxVy 0xA 0x5) ∧
      decodeWord 0b1000101001010110 = .instr (.shrVxVy 0xA 0x5) ∧
      decodeWord 0b1000101001010111 = .instr (.subnVxVy 0xA 0x5) ∧
      decodeWord 0b1000101001011110 = .instr (.shlVxVy 0xA 0x5) := by decide
theorem test_decode_sprite : decodeWord 0b1101101001010111 = .instr (.drwVxVyN 0xA 0x5 7) := by decide
theorem test_decode_keys :
    decodeWord 0b1110101010011110 = .instr (.skpVx 0xA) ∧ decodeWord 0b1110101010100001 = .instr (.sknpVx 0xA) ∧
      decodeWord 0b1111101000001010 = .instr (.ldVxK 0xA) := by decide
theorem test_decode_timers :
    decodeWord 0b1111101000000111 = .instr (.ldVxDt 0xA) ∧ decodeWord 0b1111101000010101 = .instr (.ldDtVx 0xA) ∧
      decodeWord 0b1111101000011000 = .instr (.ldStVx 0xA) := by decide
theorem test_decode_index :
    decodeWord 0b1111101000011110 = .instr (.addIVx 0xA) ∧ decodeWord 0b1111101000101001 = .instr (.ldFVx 0xA) ∧
      decodeWord 0b1111101000110011 = .instr (.ldBVx 0xA) ∧ decodeWord 0b1111101001010101 = .instr (.ldMemVx 0xA) ∧
      decodeWord 0b1111101001100101 = .instr (.ldVxMem 0xA) := by decide
/-- Vectors F5 to F11: words of no row. -/
theorem test_decode_rejects_by_name :
    decodeWord 0x8128 = .invalid (.class8 8) ∧ decodeWord 0x812F = .invalid (.class8 15) ∧
      decodeWord 0x0001 = .invalid (.class0 1) ∧ decodeWord 0xE59F = .invalid (.classE 0x9F) ∧
      decodeWord 0xF0FF = .invalid (.classF 0xFF) ∧ decodeWord 0xF000 = .invalid (.classF 0) ∧
      decodeBytes [0x60] = .invalid .truncated := by decide
/-- The bytes of a word are stored high byte first, and the table's numbering gives the same word (R50, R60). -/
theorem test_encode_canonical_words :
    encodeBytes .cls = [0x00, 0xE0] ∧ encodeBytes (.seVxVy 1 2) = [0x51, 0x20] ∧ encodeBytes (.ldINnn 0x22A) = [0xA2, 0x2A] ∧
      encodeBytes (.drwVxVyN 0 0 5) = [0xD0, 0x05] ∧ decodeTableWord 16 0xD125 = some (.drwVxVyN 1 2 5) ∧
      decodeTableWord 16 0x8128 = none := by decide

/-! Single steps. -/

/-- An environment that does nothing: no tick, no key, random byte 0. -/
def quiet : Turn := { ticks := 0, inputs := { keyHeld := 0, keyEvent := none, rngByte := 0 } }

/-- A turn without ticks. -/
def turnOf (held : BitVec 16) (event : Option Key) (random : Byte) : Turn :=
  { ticks := 0, inputs := { keyHeld := held, keyEvent := event, rngByte := random } }

/-- The start state of 95_test_vectors.md Part 2: reset, the word at 0x200, and a quiet turn. -/
def ready (word : Nat) : State := { State.reset.withFetchWord 16 word with script := [quiet] }

/-- The same under given inputs. -/
def readyUnder (word : Nat) (t : Turn) : State := { ready word with script := [t] }

/-- The state after a step. -/
def after (s : State) : State :=
  match step s with
  | .next t => t
  | _ => State.reset

/-- The state with a stack that holds one value in all of its entries. -/
def stacked (s : State) (depth : Fin 65) (entry : Word) : State := { s with sp := depth, stack := Vector.replicate 64 entry }

/-- F1: the second byte of the fetch wraps, and `pc` keeps 16 bits. -/
theorem test_fetch_wraps :
    let t := after { (((State.reset.storeByte 0x0FFF 0x61)).jump 0x0FFF) with script := [quiet] }
    t.reg 1 = 0xF0 ∧ t.pc = 0x1001 ∧ t.out.diag.bits = 0b0010 := by decide
/-- F5: class 8, N = 8. -/
theorem test_invalid_word :
    let t := after (ready 0x8128)
    t.pc = 0x0202 ∧ t.v = (ready 0x8128).v ∧ t.out.diag.bits = 0b0001 := by decide
/-- T1, T4. -/
theorem test_jp : (after (ready 0x1234)).pc = 0x0234 ∧ (after (ready 0x1FFF)).pc = 0x0FFF := by decide
/-- T6: the last free slot. -/
theorem test_call :
    let t := after (stacked (ready 0x2300) 63 0)
    t.pc = 0x0300 ∧ t.sp = 64 ∧ t.stackEntry 63 = 0x0200 ∧ t.stackEntry 62 = 0 := by decide
/-- T7: STACK_OVERFLOW. -/
theorem test_call_overflow :
    let t := after (stacked (ready 0x2300) 64 0)
    t.pc = 0x0200 ∧ t.sp = 64 ∧ t.out.diag.bits = 0b0100 := by decide
/-- T11: the wrap of the saved address plus 2. -/
theorem test_ret :
    let t := after (stacked (ready 0x00EE) 1 0xFFFE)
    t.pc = 0x0000 ∧ t.sp = 0 ∧ t.stackEntry 0 = 0xFFFE := by decide
/-- T9: STACK_UNDERFLOW. -/
theorem test_ret_underflow :
    let t := after (ready 0x00EE)
    t.pc = 0x0200 ∧ t.sp = 0 ∧ t.out.diag.bits = 0b1000 := by decide
/-- T13: the largest target. -/
theorem test_jpVfNnn : (after ((ready 0xBFFF).setReg 15 0xFF)).pc = 0x10FE := by decide
/-- R88 under `JP_OFFSET_SRC = VX`: X is the top nibble of NNN. -/
theorem test_jpVfNnn_other_source :
    (after { (((ready 0xB300).setReg 3 0x77).setReg 15 0x05) with
      cfg := { defaultConfig with jpOffsetSrc := .vX } }).pc = 0x0377 := by decide
/-- K1, K2. -/
theorem test_seVxNn :
    (after ((ready 0x3A42).setReg 10 0x42)).pc = 0x0204 ∧ (after ((ready 0x3A42).setReg 10 0x43)).pc = 0x0202 := by decide
/-- K3, K4. -/
theorem test_sneVxNn :
    (after ((ready 0x4A42).setReg 10 0x42)).pc = 0x0202 ∧ (after ((ready 0x4A42).setReg 10 0x43)).pc = 0x0204 := by decide
/-- K5, K6. -/
theorem test_seVxVy :
    (after (((ready 0x5120).setReg 1 7).setReg 2 7)).pc = 0x0204 ∧
      (after (((ready 0x512F).setReg 1 7).setReg 2 8)).pc = 0x0202 := by decide
/-- K8, K9. -/
theorem test_sneVxVy :
    (after (((ready 0x9120).setReg 1 7).setReg 2 8)).pc = 0x0204 ∧
      (after (((ready 0x9121).setReg 1 7).setReg 2 7)).pc = 0x0202 := by decide
/-- L2. -/
theorem test_ldVxNn : (after (ready 0x6FAB)).reg 15 = 0xAB := by decide
/-- L4: the sum wraps and `V[0xF]` stays. -/
theorem test_addVxNn :
    let t := after (((ready 0x7210).setReg 2 0xF0).setReg 15 0x55)
    t.reg 2 = 0 ∧ t.reg 15 = 0x55 := by decide

/-- A register operation on `V[1]` and `V[2]` with 0x55 in `V[0xF]` before: `V[1]`, `V[2]` and `V[0xF]` after. -/
def aluOn (word : Nat) (vx vy : Byte) : Byte × Byte × Byte :=
  let t := after ((((ready word).setReg 1 vx).setReg 2 vy).setReg 15 0x55)
  (t.reg 1, t.reg 2, t.reg 15)

/-- A1. -/
theorem test_ldVxVy : aluOn 0x8120 0x01 0xAB = (0xAB, 0xAB, 0x55) := by decide
/-- A2. -/
theorem test_orVxVy : aluOn 0x8121 0x0F 0xF0 = (0xFF, 0xF0, 0x55) := by decide
/-- A3. -/
theorem test_andVxVy : aluOn 0x8122 0x3C 0xF0 = (0x30, 0xF0, 0x55) := by decide
/-- A4. -/
theorem test_xorVxVy : aluOn 0x8123 0x3C 0xF0 = (0xCC, 0xF0, 0x55) := by decide
/-- A6b, A6c. -/
theorem test_addVxVy : aluOn 0x8124 0xFF 0xFF = (0xFE, 0xFF, 1) ∧ aluOn 0x8124 0xFF 0x00 = (0xFF, 0x00, 0) := by decide
/-- A7e, A7f, A7g: on equal operands the flag is 0. -/
theorem test_subVxVy :
    aluOn 0x8125 5 5 = (0, 5, 0) ∧ aluOn 0x8125 5 4 = (1, 4, 1) ∧ aluOn 0x8125 4 5 = (0xFF, 5, 0) := by decide
/-- A9a: `V[2]` is what is shifted. -/
theorem test_shrVxVy : aluOn 0x8126 0xAA 0x05 = (0x02, 0x05, 1) := by decide
/-- A8e, A8f, A8g. -/
theorem test_subnVxVy :
    aluOn 0x8127 5 5 = (0, 5, 0) ∧ aluOn 0x8127 5 4 = (0xFF, 4, 0) ∧ aluOn 0x8127 4 5 = (1, 5, 1) := by decide
/-- A10a. -/
theorem test_shlVxVy : aluOn 0x812E 0xAA 0x81 = (0x02, 0x81, 1) := by decide
/-- A12, A18: with X = 0xF the flag is what remains. -/
theorem test_flag_is_written_last :
    (after (((ready 0x8F14).setReg 15 0x80).setReg 1 0x80)).reg 15 = 1 ∧
      (after (((ready 0x8F15).setReg 15 9).setReg 1 3)).reg 15 = 1 := by decide
/-- I2. -/
theorem test_ldINnn : (after (ready 0xAFFF)).i = 0x0FFF := by decide
/-- I3, I4. -/
theorem test_addIVx :
    (after (((ready 0xF21E).setIndex 0x0FFF).setReg 2 1)).i = 0x1000 ∧
      (after (((ready 0xF21E).setIndex 0xFFFF).setReg 2 2)).i = 0x0001 := by decide
/-- I7: the byte is not masked. -/
theorem test_ldFVx : (after ((ready 0xF329).setReg 3 0xFF)).i = 0x04FB := by decide
/-- I11: the third digit wraps to address 0. -/
theorem test_ldBVx :
    let t := after (((ready 0xF033).setReg 0 0xFF).setIndex 0x0FFE)
    t.byteAt 0x0FFE = 2 ∧ t.byteAt 0x0FFF = 5 ∧ t.byteAt 0 = 5 ∧ t.i = 0x0FFE ∧ t.out.diag.bits = 0b0010 := by decide
/-- I15: a store across the boundary, `I` not reduced to 12 bits. -/
theorem test_ldMemVx :
    let t := after ((((ready 0xF155).setReg 0 0xAA).setReg 1 0xBB).setIndex 0x0FFF)
    t.byteAt 0x0FFF = 0xAA ∧ t.byteAt 0 = 0xBB ∧ t.byteAt 1 = 0x90 ∧ t.i = 0x1001 ∧ t.out.diag.bits = 0b0010 := by decide
/-- I18: a load across the boundary, `I` wraps. -/
theorem test_ldVxMem :
    let t := after ((ready 0xF165).setIndex 0xFFFF)
    t.reg 0 = 0 ∧ t.reg 1 = 0xF0 ∧ t.i = 0x0001 ∧ t.out.diag.bits = 0b0010 := by decide
/-- W1, in part: a pixel that was on, and `redraw` 0. -/
theorem test_cls :
    let t := after ((ready 0x00E0).togglePixel 31 63)
    t.pixel 31 63 = false ∧ t.pc = 0x0202 ∧ t.out.redraw = false := by decide
/-- W10: one collision, one fresh pixel. -/
theorem test_drw_collision :
    let t := after (((ready 0xD121).setIndex 0x0300).storeByte 0x0300 0xC0 |>.togglePixel 0 0)
    t.pixel 0 0 = false ∧ t.pixel 0 1 = true ∧ t.reg 15 = 1 ∧ t.out.redraw = true := by decide
/-- W7: the origin wraps and seven bits are clipped. -/
theorem test_drw_clips :
    let t := after ((((ready 0xD121).setReg 1 0xFF).setReg 2 0xFF).setIndex 0x0300 |>.storeByte 0x0300 0xFF)
    t.pixel 31 63 = true ∧ t.pixel 31 0 = false ∧ t.pixel 0 0 = false ∧ t.reg 15 = 0 := by decide
/-- P1, P2, P5. -/
theorem test_skpVx :
    (after ((readyUnder 0xE59E (turnOf 0x0080 none 0)).setReg 5 0x07)).pc = 0x0204 ∧
      (after ((readyUnder 0xE59E (turnOf 0xFF7F none 0)).setReg 5 0x07)).pc = 0x0202 ∧
      (after ((readyUnder 0xE59E (turnOf 0xFFFF none 0)).setReg 5 0x17)).pc = 0x0202 := by decide
/-- P3, P4, P6. -/
theorem test_sknpVx :
    (after ((readyUnder 0xE5A1 (turnOf 0x0080 none 0)).setReg 5 0x07)).pc = 0x0202 ∧
      (after ((readyUnder 0xE5A1 (turnOf 0x0000 none 0)).setReg 5 0x07)).pc = 0x0204 ∧
      (after ((readyUnder 0xE5A1 (turnOf 0xFFFF none 0)).setReg 5 0x17)).pc = 0x0204 := by decide
/-- P12: the value is the event's key. -/
theorem test_ldVxK :
    let t := after (readyUnder 0xF30A (turnOf 0x0001 (some 15) 0))
    t.reg 3 = 0x0F ∧ t.pc = 0x0202 ∧ t.out.keyEventTaken = true := by decide
/-- P9, P10. -/
theorem test_ldVxK_waits :
    (after (readyUnder 0xF30A (turnOf 0x0000 (some 4) 0))).pc = 0x0200 ∧
      (after (readyUnder 0xF30A (turnOf 0x0010 none 0))).pc = 0x0200 := by decide
/-- P17: FX07 reads `DT`, never `ST`. -/
theorem test_ldVxDt : (after (((ready 0xF007).setSound 9).setReg 0 3)).reg 0 = 0 := by decide
/-- P15. -/
theorem test_ldDtVx : (after ((ready 0xF015).setReg 0 0x3C)).dt = 0x3C := by decide
/-- P16. -/
theorem test_ldStVx :
    let t := after ((ready 0xF318).setReg 3 0x0A)
    t.st = 0x0A ∧ t.dt = 0 := by decide
/-- P18. -/
theorem test_rndVxNn :
    let t := after (readyUnder 0xC20F (turnOf 0 none 0xA7))
    t.reg 2 = 0x07 ∧ t.out.rngTaken = true := by decide
/-- Q1, Q2: the ticks of a turn come before its activation. -/
theorem test_ticks :
    let t := after (((readyUnder 0x1200 { quiet with ticks := 2 }).setDelay 2).setSound 1)
    t.dt = 0 ∧ t.st = 0 := by decide

/-! Witnesses: for every statement with hypotheses, a state and operands that meet them, each clause at a boundary. -/

/-- Whether a step answers a next state. -/
def stepsOn (s : State) : Bool :=
  match step s with
  | .next _ => true
  | _ => false

theorem step_of_stepsOn {s : State} (h : stepsOn s = true) : ∃ t, step s = .next t := by
  unfold stepsOn at h
  split at h
  · exact ⟨_, ‹_›⟩
  · cases h

theorem witness_DecodeOfEncodeIsTheInstruction :
    (Instr.jp 4095).wellFormed = true ∧ (Instr.drwVxVyN 15 15 15).wellFormed = true := by decide

theorem witness_EncodeOfDecodedWord :
    decodeWord 0x0FFE = .instr .ret ∧ decodeWord 0x512F = .instr (.seVxVy 1 2) := by decide

/-- Every row has a word: the premise of each `RowDecodes`; the last clause's premise is that of the theorem before. -/
theorem witness_OpcodeMapIsComplete : opcodeRows.length = 34 ∧ ∀ row ∈ opcodeRows, row.1 &&& row.2 = row.1 := by
  simp [opcodeRows]

theorem witness_StepRunsTheDecodedInstruction :
    (ready 0x6FFF).coming = .instr (.ldVxNn 15 0xFF) ∧
      (∃ t, exec (.ldVxNn 15 0xFF) (ready 0x6FFF).begin.fetch.2 = .next t) ∧
      (ready 0x800F).coming = .invalid (.class8 15) ∧
      ∃ t, execInvalid (ready 0x800F).begin.fetch.2 = .next t := ⟨by decide, ⟨_, rfl⟩, by decide, ⟨_, rfl⟩⟩

/-- The bytes next to the two that are stored, with `pc` at the last address of memory. -/
theorem witness_StoredWordIsTheOneFetched :
    let s := State.reset.jump 4095
    (4094 % 4096 ≠ s.pc.toNat % 4096 ∧ 4094 % 4096 ≠ (s.pc.toNat + 1) % 4096) ∧
      1 % 4096 ≠ s.pc.toNat % 4096 ∧ 1 % 4096 ≠ (s.pc.toNat + 1) % 4096 := by decide

theorem witness_InvalidWordOnlyAdvances :
    (∀ row ∈ opcodeRows, (0xF066 : Word) &&& row.2 ≠ row.1) ∧ (ready 0xF066).begin.fetch.1 = 0xF066 :=
  ⟨by simp [opcodeRows], by decide⟩

/-- The premise `step s = next t` of the statements about the outputs and about the invariant, and the other premise of
the latter. -/
theorem witness_step_answers : (∃ t, step (ready 0xDFFF) = .next t) ∧ Inv (ready 0xDFFF) :=
  ⟨step_of_stepsOn (by decide +kernel),
    Inv.of_mem (Inv.storeByte (Inv.storeByte (s := State.reset) Memory.nil_wf 512 0xDF) 513 0xFF) rfl rfl⟩

/-- Both sides of each equivalence about the outputs occur: a draw, an event taken, a random byte, and none of them. -/
theorem witness_outputs :
    (after (ready 0xD000)).out.redraw = true ∧ (after (ready 0x00E0)).out.redraw = false ∧
      (after (readyUnder 0xFF0A (turnOf 0x8000 (some 0) 0))).out.keyEventTaken = true ∧
      (after (readyUnder 0xFF0A (turnOf 0x8000 none 0))).out.keyEventTaken = false ∧
      (after (ready 0xC000)).out.rngTaken = true := by decide

/-- ADDR_WRAP on both sides of its boundary, from the fetch and from a data access. -/
theorem witness_DiagnosticsExactlyForTheirCauses :
    (after ((State.reset.jump 4094).withFetchWord 16 0x6000)).out.diag.addrWrap = false ∧
      (after ((State.reset.jump 4095).withFetchWord 16 0x6000)).out.diag.addrWrap = true ∧
      (after ((ready 0xFF55).setIndex 4080)).out.diag.addrWrap = false ∧
      (after ((ready 0xFF55).setIndex 4081)).out.diag.addrWrap = true := by decide +kernel

theorem witness_FinalPcOfEveryInstruction :
    (Instr.call 4095).wellFormed = true ∧ (Instr.jpVfNnn 4095).wellFormed = true ∧ Instr.cls.wellFormed = true := by decide

/-- Two environments that differ in everything an instruction does not read, for each kind of reading. -/
theorem witness_InputsNotReadHaveNoEffect :
    let s := State.reset
    ReadsAlike (s.withEnvironment [turnOf 1 none 0] 0).inputs (s.withEnvironment [turnOf 2 (some 3) 4] 5).inputs .cls ∧
      ReadsAlike (s.withEnvironment [turnOf 1 none 0] 0).inputs (s.withEnvironment [turnOf 1 (some 3) 4] 5).inputs (.skpVx 15) ∧
      ReadsAlike (s.withEnvironment [turnOf 1 none 0] 0).inputs (s.withEnvironment [turnOf 1 none 4] 5).inputs (.ldVxK 15) ∧
      ReadsAlike (s.withEnvironment [turnOf 1 none 4] 0).inputs (s.withEnvironment [turnOf 2 (some 3) 4] 5).inputs
        (.rndVxNn 15 0) :=
  ⟨trivial, rfl, ⟨rfl, rfl⟩, rfl⟩

/-- Two stores in the two orders, at the last addresses of memory. -/
theorem witness_MemoriesThatReadAlikeAreEqual :
    let m₁ := Memory.write defaultFont (Memory.write defaultFont [] 4095 1) 4094 2
    let m₂ := Memory.write defaultFont (Memory.write defaultFont [] 4094 2) 4095 1
    Memory.wf defaultFont m₁ ∧ Memory.wf defaultFont m₂ ∧
      ∀ a, a < 4096 → Memory.read defaultFont m₁ a = Memory.read defaultFont m₂ a :=
  ⟨Memory.write_wf (Memory.write_wf Memory.nil_wf (by decide)) (by decide),
    Memory.write_wf (Memory.write_wf Memory.nil_wf (by decide)) (by decide), fun _ _ => rfl⟩

theorem witness_CreationZeroesAllButPcAndFont : 79 < 80 ∧ 80 ≤ 80 ∧ 80 < 4096 ∧ 80 ≤ 4095 ∧ 4095 < 4096 := by decide

/-- The longest program that fits, the shortest that does not, and the addresses where the clauses meet. -/
theorem witness_LoaderPlacesProgramOrRefuses :
    (List.replicate 3584 (0 : Byte)).length ≤ 3584 ∧ 3583 < (List.replicate 3584 (0 : Byte)).length ∧
      3584 < (List.replicate 3585 (0 : Byte)).length ∧
      (80 ≤ 511 ∧ 511 < 4096 ∧ (511 < 512 ∨ 512 + (List.replicate 3583 (0 : Byte)).length ≤ 511)) ∧
      (80 ≤ 4095 ∧ 4095 < 4096 ∧ (4095 < 512 ∨ 512 + (List.replicate 3583 (0 : Byte)).length ≤ 4095)) := by
  simp only [List.length_replicate]
  decide

/-- A jump to itself at the last address that the definition admits. -/
theorem witness_FinishedProgramStandsStill :
    Finished { (State.reset.jump 4094).withFetchWord 16 0x1FFE with script := [quiet] } := ⟨by decide, by decide⟩

/-- The premise of `Advances`, at its boundary. -/
theorem witness_Advances : (State.reset.jump 65533).pc.toNat + 2 < 65536 := by decide

theorem witness_JumpSetsPcToAddress : 4095 < 4096 ∧ (0x1FFF : Word) &&& 0xF000 = 0x1000 := by decide

theorem witness_OffsetJumpAddsTheConfiguredRegister :
    4095 < 4096 ∧ State.reset.cfg.jpOffsetSrc = .vF ∧
      (State.created { defaultConfig with jpOffsetSrc := .vX }).cfg.jpOffsetSrc = .vX ∧ (15 : Reg).val = 4095 / 256 := by
  decide

theorem witness_CallPushesItsOwnAddress :
    4095 < 4096 ∧ (stacked State.reset 63 0).sp.val < 64 ∧ 62 ≠ (stacked State.reset 63 0).sp.val := by decide

theorem witness_ReturnGoesPastTheCall :
    0 < (stacked State.reset 1 0).sp.val ∧ 0 < (stacked State.reset 64 0xFFFF).sp.val := by decide

theorem witness_CallThenReturnRoundTrip :
    State.reset.sp.val < 64 ∧ (stacked State.reset 63 0).sp.val < 64 ∧ 62 < (stacked State.reset 63 0).sp.val := by decide

theorem witness_StackFaultsChangeNothingAndRepeat :
    ((stacked (ready 0x2FFF) 64 0).coming = .instr (.call 0xFFF) ∧ (stacked (ready 0x2FFF) 64 0).sp.val = 64) ∧
      (ready 0x00EE).coming = .instr .ret ∧ (ready 0x00EE).sp.val = 0 := by decide

/-- Key 15 held and named by 15; named by 15 and not held; the first value that names no key. -/
theorem witness_KeySkipsTestTheHeldKey :
    let s := (readyUnder 0xEF9E (turnOf 0x8000 none 0)).setReg 15 15
    let u := (readyUnder 0xEF9E (turnOf 0x7FFF none 0)).setReg 15 15
    Holds s (s.reg 15) ∧ ¬Holds u (u.reg 15) ∧ 16 ≤ ((ready 0xEF9E).setReg 15 16 |>.reg 15).toNat :=
  ⟨⟨15, rfl, by decide⟩, by rintro ⟨k, hk, h⟩; revert hk h; revert k; decide, by decide⟩

/-- The premise of the result clauses of the flag writers, at the register next to the flag. -/
theorem witness_flag_writers : (14 : Reg) ≠ regF := by decide

theorem witness_FlagIsExactlyZeroOrOne :
    Instr.drwVxVyN 15 15 16 ∈ [.addVxVy 15 15, .subVxVy 15 15, .shrVxVy 15 15, .subnVxVy 15 15, .shlVxVy 15 15,
      .drwVxVyN 15 15 16] := by decide

theorem witness_LoadIndexSetsAddress : 4095 < 4096 ∧ (0xAFFF : Word) &&& 0xF000 = 0xA000 := by decide

/-- The addresses next to the three that are stored, across the end of memory. -/
theorem witness_DecimalStoreWritesThreeDigits :
    let s := State.reset.setIndex 4095
    (∀ k, k < 3 → effectiveAddress 2 ≠ effectiveAddress (s.indexRaw k)) ∧
      ∀ k, k < 3 → effectiveAddress 4094 ≠ effectiveAddress (s.indexRaw k) := by decide

/-- The last register stored, and the addresses next to the bytes that are stored. -/
theorem witness_RegisterStoreWritesRangeAndMovesIndex :
    let s := State.reset.setIndex 4095
    (15 : Reg) ≤ 15 ∧ (∀ k : Reg, k ≤ 15 → effectiveAddress 15 ≠ effectiveAddress (s.indexRaw k.val)) ∧
      ∀ k : Reg, k ≤ 15 → effectiveAddress 4094 ≠ effectiveAddress (s.indexRaw k.val) := by decide

theorem witness_RegisterLoadReadsRangeAndMovesIndex : (14 : Reg) ≤ 14 ∧ (14 : Reg) < 15 := by decide

theorem witness_StoreThenLoadRestoresRegisters : (15 : Reg) ≤ 15 := by decide

theorem witness_ClearTurnsEveryPixelOff : (ready 0x0000).coming = .instr .cls := by decide

/-- The premises of the double draw: with X and Y below 15, and with X = Y = 15 where the first draw leaves `V[0xF]`; and
a screen that is clear. -/
theorem witness_DrawingTwiceRestoresTheScreen :
    (∃ t, exec (.drwVxVyN 14 13 1) (State.reset.setReg 14 255) = .next t ∧
      (t.reg 14).toNat % 64 = ((State.reset.setReg 14 255).reg 14).toNat % 64 ∧
      (t.reg 13).toNat % 32 = ((State.reset.setReg 14 255).reg 13).toNat % 32) ∧
    (∃ t, exec (.drwVxVyN 15 15 1) State.reset = .next t ∧
      (t.reg 15).toNat % 64 = (State.reset.reg 15).toNat % 64 ∧ (t.reg 15).toNat % 32 = (State.reset.reg 15).toNat % 32) ∧
    ∀ row col, State.reset.pixel row col = false :=
  ⟨⟨_, rfl, by decide, by decide⟩, ⟨_, rfl, by decide, by decide⟩, fun row col =>
    (State.pixel_of_fb (s := State.reset.clearScreen) rfl row col).trans (State.pixel_clearScreen State.reset row col)⟩

theorem witness_KeyWaitTakesAnEventOrChangesNothing :
    Waits (readyUnder 0xFF0A (turnOf 0 (some 15) 0)) ∧ Waits (readyUnder 0xFF0A (turnOf 0xFFFF none 0)) ∧
      (readyUnder 0xFF0A (turnOf 0x8000 (some 15) 0)).inputs.keyHeld ≠ 0 ∧
      (readyUnder 0xFF0A (turnOf 0x8000 (some 15) 0)).inputs.keyEvent = some 15 := by decide

end Sys2Proof.Tests
end

section
/-! PROOFS. The opcode map (30_encoding.md R55): what each of the three masks says of a word's fields, the 34 rows one by
one, and the row of an instruction that a word decodes to. -/

namespace Sys2Proof

/-! The masks. A pattern is a word that its mask leaves unchanged, `m AND mask = m`. -/

theorem fieldClass_lt (w : Word) : fieldClass w < 16 := (w.extractLsb' 12 4).isLt

/-- Mask 0xF000 tests the class. -/
theorem and_F000_eq_iff {w m : Word} {c : Nat} (hm : m &&& 0xF000 = m) (hc : fieldClass m = c) :
    w &&& 0xF000 = m ↔ fieldClass w = c := by
  constructor
  · rintro rfl
    rwa [fieldClass_and (by decide)] at hc
  · intro h
    rw [← hm]
    apply word_ext
    · rw [fieldClass_and (by decide), fieldClass_and (by decide), h, hc]
    · rw [fieldX_and_zero (by decide), fieldX_and_zero (by decide)]
    · rw [fieldY_and_zero (by decide), fieldY_and_zero (by decide)]
    · rw [fieldN_and_zero (by decide), fieldN_and_zero (by decide)]

/-- Mask 0xF00F tests the class and N. -/
theorem and_F00F_eq_iff {w m : Word} {c n : Nat} (hm : m &&& 0xF00F = m) (hc : fieldClass m = c) (hn : fieldN m = n) :
    w &&& 0xF00F = m ↔ fieldClass w = c ∧ fieldN w = n := by
  constructor
  · rintro rfl
    rw [fieldClass_and (by decide)] at hc
    rw [fieldN_and (by decide)] at hn
    exact ⟨hc, hn⟩
  · rintro ⟨hwc, hwn⟩
    rw [← hm]
    apply word_ext
    · rw [fieldClass_and (by decide), fieldClass_and (by decide), hwc, hc]
    · rw [fieldX_and_zero (by decide), fieldX_and_zero (by decide)]
    · rw [fieldY_and_zero (by decide), fieldY_and_zero (by decide)]
    · rw [fieldN_and (by decide), fieldN_and (by decide), hwn, hn]

/-- NN is Y and N together. -/
theorem fieldNn_toNat_eq_iff {a b : Word} :
    (fieldNn a).toNat = (fieldNn b).toNat ↔ fieldY a = fieldY b ∧ fieldN a = fieldN b := by
  rw [Fin.ext_iff, fieldNn_toNat, fieldNn_toNat, fieldY_val, fieldY_val, fieldN_toNat, fieldN_toNat]
  omega

/-- Mask 0xF0FF tests the class and NN. -/
theorem and_F0FF_eq_iff {w m : Word} {c n : Nat} (hm : m &&& 0xF0FF = m) (hc : fieldClass m = c)
    (hn : (fieldNn m).toNat = n) : w &&& 0xF0FF = m ↔ fieldClass w = c ∧ (fieldNn w).toNat = n := by
  constructor
  · rintro rfl
    rw [fieldClass_and (by decide)] at hc
    rw [fieldNn_and (by decide)] at hn
    exact ⟨hc, hn⟩
  · rintro ⟨hwc, hwn⟩
    obtain ⟨hy, hn⟩ := fieldNn_toNat_eq_iff.mp (hwn.trans hn.symm)
    rw [← hm]
    apply word_ext
    · rw [fieldClass_and (by decide), fieldClass_and (by decide), hwc, hc]
    · rw [fieldX_and_zero (by decide), fieldX_and_zero (by decide)]
    · rw [fieldY_and (by decide), fieldY_and (by decide), hy]
    · rw [fieldN_and (by decide), fieldN_and (by decide), hn]

namespace Machine

/-! From a row to its instruction: the fields that the mask tests choose the decoder's arm. One lemma per row. -/

theorem RowDecodes.of_class {m : Word} {f : Word → Instr} (c : Nat) (hm : m &&& 0xF000 = m) (hc : fieldClass m = c)
    (h : ∀ w, fieldClass w = c → decodeWord w = .instr (f w)) : RowDecodes m 0xF000 f :=
  fun w hw => h w ((and_F000_eq_iff hm hc).mp hw)

theorem RowDecodes.of_classN {m : Word} {f : Word → Instr} (c n : Nat) (hm : m &&& 0xF00F = m) (hc : fieldClass m = c)
    (hn : fieldN m = n) (h : ∀ w, fieldClass w = c → fieldN w = n → decodeWord w = .instr (f w)) :
    RowDecodes m 0xF00F f := by
  intro w hw
  obtain ⟨hwc, hwn⟩ := (and_F00F_eq_iff hm hc hn).mp hw
  exact h w hwc hwn

theorem RowDecodes.of_classNn {m : Word} {f : Word → Instr} (c n : Nat) (hm : m &&& 0xF0FF = m) (hc : fieldClass m = c)
    (hn : (fieldNn m).toNat = n) (h : ∀ w, fieldClass w = c → (fieldNn w).toNat = n → decodeWord w = .instr (f w)) :
    RowDecodes m 0xF0FF f := by
  intro w hw
  obtain ⟨hwc, hwn⟩ := (and_F0FF_eq_iff hm hc hn).mp hw
  exact h w hwc hwn

theorem RowDecodes.cls : RowDecodes 0x0000 0xF00F (fun _ => .cls) :=
  .of_classN 0x0 0x0 rfl rfl rfl fun w hc hn => by simp only [decodeWord, hc, decodeClass0, hn]

theorem RowDecodes.ret : RowDecodes 0x000E 0xF00F (fun _ => .ret) :=
  .of_classN 0x0 0xE rfl rfl rfl fun w hc hn => by simp only [decodeWord, hc, decodeClass0, hn]

theorem RowDecodes.jp : RowDecodes 0x1000 0xF000 (fun w => .jp (fieldNnn w)) :=
  .of_class 0x1 rfl rfl fun w hc => by simp only [decodeWord, hc]

theorem RowDecodes.call : RowDecodes 0x2000 0xF000 (fun w => .call (fieldNnn w)) :=
  .of_class 0x2 rfl rfl fun w hc => by simp only [decodeWord, hc]

theorem RowDecodes.seVxNn : RowDecodes 0x3000 0xF000 (fun w => .seVxNn (fieldX w) (fieldNn w)) :=
  .of_class 0x3 rfl rfl fun w hc => by simp only [decodeWord, hc]

theorem RowDecodes.sneVxNn : RowDecodes 0x4000 0xF000 (fun w => .sneVxNn (fieldX w) (fieldNn w)) :=
  .of_class 0x4 rfl rfl fun w hc => by simp only [decodeWord, hc]

theorem RowDecodes.seVxVy : RowDecodes 0x5000 0xF000 (fun w => .seVxVy (fieldX w) (fieldY w)) :=
  .of_class 0x5 rfl rfl fun w hc => by simp only [decodeWord, hc]

theorem RowDecodes.ldVxNn : RowDecodes 0x6000 0xF000 (fun w => .ldVxNn (fieldX w) (fieldNn w)) :=
  .of_class 0x6 rfl rfl fun w hc => by simp only [decodeWord, hc]

theorem RowDecodes.addVxNn : RowDecodes 0x7000 0xF000 (fun w => .addVxNn (fieldX w) (fieldNn w)) :=
  .of_class 0x7 rfl rfl fun w hc => by simp only [decodeWord, hc]

theorem RowDecodes.ldVxVy : RowDecodes 0x8000 0xF00F (fun w => .ldVxVy (fieldX w) (fieldY w)) :=
  .of_classN 0x8 0x0 rfl rfl rfl fun w hc hn => by simp only [decodeWord, hc, decodeClass8, hn]

theorem RowDecodes.orVxVy : RowDecodes 0x8001 0xF00F (fun w => .orVxVy (fieldX w) (fieldY w)) :=
  .of_classN 0x8 0x1 rfl rfl rfl fun w hc hn => by simp only [decodeWord, hc, decodeClass8, hn]

theorem RowDecodes.andVxVy : RowDecodes 0x8002 0xF00F (fun w => .andVxVy (fieldX w) (fieldY w)) :=
  .of_classN 0x8 0x2 rfl rfl rfl fun w hc hn => by simp only [decodeWord, hc, decodeClass8, hn]

theorem RowDecodes.xorVxVy : RowDecodes 0x8003 0xF00F (fun w => .xorVxVy (fieldX w) (fieldY w)) :=
  .of_classN 0x8 0x3 rfl rfl rfl fun w hc hn => by simp only [decodeWord, hc, decodeClass8, hn]

theorem RowDecodes.addVxVy : RowDecodes 0x8004 0xF00F (fun w => .addVxVy (fieldX w) (fieldY w)) :=
  .of_classN 0x8 0x4 rfl rfl rfl fun w hc hn => by simp only [decodeWord, hc, decodeClass8, hn]

theorem RowDecodes.subVxVy : RowDecodes 0x8005 0xF00F (fun w => .subVxVy (fieldX w) (fieldY w)) :=
  .of_classN 0x8 0x5 rfl rfl rfl fun w hc hn => by simp only [decodeWord, hc, decodeClass8, hn]

theorem RowDecodes.shrVxVy : RowDecodes 0x8006 0xF00F (fun w => .shrVxVy (fieldX w) (fieldY w)) :=
  .of_classN 0x8 0x6 rfl rfl rfl fun w hc hn => by simp only [decodeWord, hc, decodeClass8, hn]

theorem RowDecodes.subnVxVy : RowDecodes 0x8007 0xF00F (fun w => .subnVxVy (fieldX w) (fieldY w)) :=
  .of_classN 0x8 0x7 rfl rfl rfl fun w hc hn => by simp only [decodeWord, hc, decodeClass8, hn]

theorem RowDecodes.shlVxVy : RowDecodes 0x800E 0xF00F (fun w => .shlVxVy (fieldX w) (fieldY w)) :=
  .of_classN 0x8 0xE rfl rfl rfl fun w hc hn => by simp only [decodeWord, hc, decodeClass8, hn]

theorem RowDecodes.sneVxVy : RowDecodes 0x9000 0xF000 (fun w => .sneVxVy (fieldX w) (fieldY w)) :=
  .of_class 0x9 rfl rfl fun w hc => by simp only [decodeWord, hc]

theorem RowDecodes.ldINnn : RowDecodes 0xA000 0xF000 (fun w => .ldINnn (fieldNnn w)) :=
  .of_class 0xA rfl rfl fun w hc => by simp only [decodeWord, hc]

theorem RowDecodes.jpVfNnn : RowDecodes 0xB000 0xF000 (fun w => .jpVfNnn (fieldNnn w)) :=
  .of_class 0xB rfl rfl fun w hc => by simp only [decodeWord, hc]

theorem RowDecodes.rndVxNn : RowDecodes 0xC000 0xF000 (fun w => .rndVxNn (fieldX w) (fieldNn w)) :=
  .of_class 0xC rfl rfl fun w hc => by simp only [decodeWord, hc]

theorem RowDecodes.drwVxVyN : RowDecodes 0xD000 0xF000 (fun w => .drwVxVyN (fieldX w) (fieldY w) (fieldN w)) :=
  .of_class 0xD rfl rfl fun w hc => by simp only [decodeWord, hc]

theorem RowDecodes.skpVx : RowDecodes 0xE09E 0xF0FF (fun w => .skpVx (fieldX w)) :=
  .of_classNn 0xE 0x9E rfl rfl rfl fun w hc hn => by simp only [decodeWord, hc, decodeClassE, hn]

theorem RowDecodes.sknpVx : RowDecodes 0xE0A1 0xF0FF (fun w => .sknpVx (fieldX w)) :=
  .of_classNn 0xE 0xA1 rfl rfl rfl fun w hc hn => by simp only [decodeWord, hc, decodeClassE, hn]

theorem RowDecodes.ldVxDt : RowDecodes 0xF007 0xF0FF (fun w => .ldVxDt (fieldX w)) :=
  .of_classNn 0xF 0x07 rfl rfl rfl fun w hc hn => by simp only [decodeWord, hc, decodeClassF, hn]

theorem RowDecodes.ldVxK : RowDecodes 0xF00A 0xF0FF (fun w => .ldVxK (fieldX w)) :=
  .of_classNn 0xF 0x0A rfl rfl rfl fun w hc hn => by simp only [decodeWord, hc, decodeClassF, hn]

theorem RowDecodes.ldDtVx : RowDecodes 0xF015 0xF0FF (fun w => .ldDtVx (fieldX w)) :=
  .of_classNn 0xF 0x15 rfl rfl rfl fun w hc hn => by simp only [decodeWord, hc, decodeClassF, hn]

theorem RowDecodes.ldStVx : RowDecodes 0xF018 0xF0FF (fun w => .ldStVx (fieldX w)) :=
  .of_classNn 0xF 0x18 rfl rfl rfl fun w hc hn => by simp only [decodeWord, hc, decodeClassF, hn]

theorem RowDecodes.addIVx : RowDecodes 0xF01E 0xF0FF (fun w => .addIVx (fieldX w)) :=
  .of_classNn 0xF 0x1E rfl rfl rfl fun w hc hn => by simp only [decodeWord, hc, decodeClassF, hn]

theorem RowDecodes.ldFVx : RowDecodes 0xF029 0xF0FF (fun w => .ldFVx (fieldX w)) :=
  .of_classNn 0xF 0x29 rfl rfl rfl fun w hc hn => by simp only [decodeWord, hc, decodeClassF, hn]

theorem RowDecodes.ldBVx : RowDecodes 0xF033 0xF0FF (fun w => .ldBVx (fieldX w)) :=
  .of_classNn 0xF 0x33 rfl rfl rfl fun w hc hn => by simp only [decodeWord, hc, decodeClassF, hn]

theorem RowDecodes.ldMemVx : RowDecodes 0xF055 0xF0FF (fun w => .ldMemVx (fieldX w)) :=
  .of_classNn 0xF 0x55 rfl rfl rfl fun w hc hn => by simp only [decodeWord, hc, decodeClassF, hn]

theorem RowDecodes.ldVxMem : RowDecodes 0xF065 0xF0FF (fun w => .ldVxMem (fieldX w)) :=
  .of_classNn 0xF 0x65 rfl rfl rfl fun w hc hn => by simp only [decodeWord, hc, decodeClassF, hn]

/-! From an instruction to its row, class by class: the arm of the decoder that answered tells the fields
that the row's mask tests. The arm that rejects answers no instruction. -/

variable {w : Word} {i : Instr}

theorem row_of_decodeClass0 (hc : fieldClass w = 0x0) (h : decodeClass0 w = .instr i) : w &&& i.row.2 = i.row.1 := by
  unfold decodeClass0 at h
  split at h <;> cases h
  all_goals
    dsimp only [Instr.row]
    next hn => exact (and_F00F_eq_iff (by decide) (by decide) (by decide)).mpr ⟨hc, hn⟩

theorem row_of_decodeClass8 (hc : fieldClass w = 0x8) (h : decodeClass8 w = .instr i) : w &&& i.row.2 = i.row.1 := by
  unfold decodeClass8 at h
  split at h <;> cases h
  all_goals
    dsimp only [Instr.row]
    next hn => exact (and_F00F_eq_iff (by decide) (by decide) (by decide)).mpr ⟨hc, hn⟩

theorem row_of_decodeClassE (hc : fieldClass w = 0xE) (h : decodeClassE w = .instr i) : w &&& i.row.2 = i.row.1 := by
  unfold decodeClassE at h
  split at h <;> cases h
  all_goals
    dsimp only [Instr.row]
    next hn => exact (and_F0FF_eq_iff (by decide) (by decide) (by decide)).mpr ⟨hc, hn⟩

theorem row_of_decodeClassF (hc : fieldClass w = 0xF) (h : decodeClassF w = .instr i) : w &&& i.row.2 = i.row.1 := by
  unfold decodeClassF at h
  split at h <;> cases h
  all_goals
    dsimp only [Instr.row]
    next hn => exact (and_F0FF_eq_iff (by decide) (by decide) (by decide)).mpr ⟨hc, hn⟩

/-- A word that decodes to an instruction is a word of that instruction's row. -/
theorem row_of_decodeWord (h : decodeWord w = .instr i) : w &&& i.row.2 = i.row.1 := by
  unfold decodeWord at h
  split at h
  case h_1 hc => exact row_of_decodeClass0 hc h
  case h_9 hc => exact row_of_decodeClass8 hc h
  case h_15 hc => exact row_of_decodeClassE hc h
  case h_16 =>
    have hc : fieldClass w = 0xF := by -- the last arm: the class is none of 0x0 to 0xE
      have := fieldClass_lt w
      simp only [imp_false] at *
      omega
    exact row_of_decodeClassF hc h
  all_goals
    cases h
    dsimp only [Instr.row]
    next hc => exact (and_F000_eq_iff (by decide) (by decide)).mpr hc

/-- Settles O3: each row from its own lemma, and the converse from the decoder's arms. -/
theorem opcodeMapIsComplete : Obligations.OpcodeMapIsComplete :=
  ⟨⟨.cls, .ret, .jp, .call, .seVxNn, .sneVxNn, .seVxVy, .ldVxNn, .addVxNn⟩,
    ⟨.ldVxVy, .orVxVy, .andVxVy, .xorVxVy, .addVxVy, .subVxVy, .shrVxVy, .subnVxVy, .shlVxVy⟩,
    ⟨.sneVxVy, .ldINnn, .jpVfNnn, .rndVxNn, .drwVxVyN, .skpVx, .sknpVx⟩,
    ⟨.ldVxDt, .ldVxK, .ldDtVx, .ldStVx, .addIVx, .ldFVx, .ldBVx, .ldMemVx, .ldVxMem⟩,
    fun _ _ => row_of_decodeWord⟩

end Machine
end Sys2Proof
end

section
/-! PROOFS. The fetch (40_step_cycle.md R72) and the invalid word (R76): what each changes, and a step that meets them. -/

namespace Sys2Proof.Machine

/-- A raised cause changes its own flag alone (60_exceptions.md R160). -/
theorem State.raise_frame (s : State) (c : Cause) : KeepsAllBut [.flag c] s (s.raise c) := by
  apply KeepsAllBut.of_fields
  case hfl =>
    intro e he
    have hne : e ≠ c := fun h => he (h ▸ List.mem_singleton_self _)
    simp [Diag.flag_mark, hne]
  case hr => exact fun r _ => State.reg_of_v rfl r
  case he => exact fun k _ => State.stackEntry_of_stack rfl k
  case hb => exact fun a _ => State.byteAt_of_mem rfl rfl a
  all_goals simp

/-! The fetch. -/

theorem State.fetch_word_toNat (s : State) : s.fetch.1.toNat =
    256 * (s.byteAt (s.pc.toNat % 4096)).toNat + (s.byteAt ((s.pc.toNat + 1) % 4096)).toNat := by
  rw [State.fetch_word, wordOfBytes_toNat, State.byteAt_mod, State.byteAt_mod]

/-- The fetch is two reads, and each changes ADDR_WRAP alone. -/
theorem State.fetch_frame (s : State) : KeepsAllBut [.flag .addrWrap] s s.fetch.2 :=
  (s.noteAccess_frame s.pc.toNat).trans (State.noteAccess_frame _ (s.pc.toNat + 1))

@[simp] theorem State.fetch_pc (s : State) : s.fetch.2.pc = s.pc := by rw [State.fetch_state]

theorem State.fetch_out (s : State) : s.fetch.2.out = { s.out with
    diag := { s.out.diag with addrWrap := s.out.diag.addrWrap || decide (4095 ≤ s.pc.toNat) } } := by
  rw [State.fetch_state]

theorem step_eq (s : State) : step s = finishTurn (runWord s.begin.fetch.1 s.begin.fetch.2) := rfl

/-- Settles O6: the word from its two bytes, the frame from the two reads, the flag from the outputs after the fetch. -/
theorem fetchReadsTwoBytesHighFirst : Obligations.FetchReadsTwoBytesHighFirst := by
  intro s
  refine ⟨s.fetch_word_toNat, s.fetch_frame, ?_, ?_, step_eq s⟩
  · rw [State.fetch_out]
  · rw [State.fetch_out]

/-! The invalid word. -/

/-- The opcode map lists the row of every instruction (30_encoding.md R55). -/
theorem row_mem_opcodeRows (i : Instr) : i.row ∈ opcodeRows := by
  cases i <;> simp [Instr.row, opcodeRows]

/-- A word of no row decodes to no instruction, since it would be a word of the instruction's row. -/
theorem decodeWord_of_no_row {w : Word} (h : ∀ row ∈ opcodeRows, w &&& row.2 ≠ row.1) :
    ∃ r, decodeWord w = .invalid r := by
  cases hd : decodeWord w with
  | instr i => exact absurd (row_of_decodeWord hd) (h i.row (row_mem_opcodeRows i))
  | invalid r => exact ⟨r, rfl⟩

theorem runWord_of_no_row {w : Word} (h : ∀ row ∈ opcodeRows, w &&& row.2 ≠ row.1) (s : State) :
    runWord w s = .next (s.raise .invalidInstruction).advance := by
  obtain ⟨r, hr⟩ := decodeWord_of_no_row h
  simp only [runWord, hr, execInvalid]

/-- A step that fetches a word of no row: the flag, the advance and the end of the turn. -/
theorem step_of_no_row {s : State} (h : ∀ row ∈ opcodeRows, s.begin.fetch.1 &&& row.2 ≠ row.1) :
    step s = .next ((s.begin.fetch.2.raise .invalidInstruction).advance).endTurn := by
  rw [step_eq, runWord_of_no_row h, finishTurn]

/-- Settles O10: a word of no row runs the invalid instruction, on any state and on the one after a step's fetch. -/
theorem invalidWordOnlyAdvances : Obligations.InvalidWordOnlyAdvances := by
  intro w s h
  constructor
  · exact ⟨_, runWord_of_no_row h s, State.advance_pc_toNat _, (s.raise_frame .invalidInstruction).advance, rfl⟩
  · rintro rfl
    refine ⟨_, step_of_no_row h, ?_, ?_⟩
    · rw [State.endTurn_pc, State.advance_pc_toNat, State.raise_pc, State.fetch_pc, State.begin_pc, nextWordAddress]
    · rw [State.endTurn_out, State.advance_out, State.raise_out, State.fetch_out, State.begin_out, State.begin_pc]
      rfl

end Sys2Proof.Machine
end

section
/-! PROOFS. Control transfer (41_control_transfer.md): the jumps. -/

namespace Sys2Proof.Machine

theorem exec_jp (nnn : Nat) (s : State) : exec (.jp nnn) s = .next (s.jump (addressOperand nnn)) := rfl

/-- Settles O26: the row from the opcode map, and the jump as one write of `pc` on an otherwise unchanged state. -/
theorem jumpSetsPcToAddress : Obligations.JumpSetsPcToAddress := by
  refine ⟨RowDecodes.jp, fun nnn s hnnn => ⟨s.jump (addressOperand nnn), exec_jp nnn s, ?_, ?_⟩⟩
  · rw [State.jump_pc, addressOperand_toNat hnnn]
  · exact (KeepsAllBut.refl [] s).jump (addressOperand nnn)

end Sys2Proof.Machine
end

section
/-! PROOFS. The conditional skips (42_conditional_skip.md): the register skips. -/

namespace Sys2Proof.Machine

/-! A register skip is one `skipIf` on the comparison it names; the comparison is one of bytes, the rule's of numbers. -/

theorem exec_seVxNn (x : Reg) (nn : Byte) (s : State) :
    exec (.seVxNn x nn) s = .next (s.skipIf (s.reg x == nn)) := rfl

theorem exec_sneVxNn (x : Reg) (nn : Byte) (s : State) :
    exec (.sneVxNn x nn) s = .next (s.skipIf (s.reg x != nn)) := rfl

theorem exec_seVxVy (x y : Reg) (s : State) :
    exec (.seVxVy x y) s = .next (s.skipIf (s.reg x == s.reg y)) := rfl

theorem exec_sneVxVy (x y : Reg) (s : State) :
    exec (.sneVxVy x y) s = .next (s.skipIf (s.reg x != s.reg y)) := rfl

theorem beq_iff_toNat_eq (a b : Byte) : (a == b) = true ↔ a.toNat = b.toNat := by
  rw [beq_iff_eq, BitVec.toNat_inj]

theorem bne_iff_toNat_ne (a b : Byte) : (a != b) = true ↔ a.toNat ≠ b.toNat := by
  rw [bne_iff_ne, ne_eq, ne_eq, BitVec.toNat_inj]

/-- A skip changes `pc` alone: it is one jump. -/
theorem State.skipIf_frame (s : State) (c : Bool) : KeepsAllBut [.pc] s (s.skipIf c) :=
  (KeepsAllBut.refl [] s).jump _

/-- What an instruction does that ends in a skip whose test decides `P` (42_conditional_skip.md R95 to R98). -/
theorem skips_when {r : Result} {s : State} {c : Bool} {P : Prop} [Decidable P] (hr : r = .next (s.skipIf c))
    (hc : c = true ↔ P) :
    ∃ t, r = .next t ∧ KeepsAllBut [.pc] s t ∧
      t.pc.toNat = if P then (s.pc.toNat + 4) % 65536 else (s.pc.toNat + 2) % 65536 := by
  refine ⟨s.skipIf c, hr, s.skipIf_frame c, ?_⟩
  rw [State.skipIf_pc_toNat]
  exact if_congr hc rfl rfl

/-- Settles O32: the four rows from the opcode map, and each skip by the comparison it makes. -/
theorem registerSkipsAdvanceByFourOrTwo : Obligations.RegisterSkipsAdvanceByFourOrTwo := by
  refine ⟨RowDecodes.seVxNn, RowDecodes.sneVxNn, RowDecodes.seVxVy, RowDecodes.sneVxVy,
    fun x y nn s => ⟨?_, ?_, ?_, ?_⟩⟩
  · exact skips_when (exec_seVxNn x nn s) (beq_iff_toNat_eq _ _)
  · exact skips_when (exec_sneVxNn x nn s) (bne_iff_toNat_ne _ _)
  · exact skips_when (exec_seVxVy x y s) (beq_iff_toNat_eq _ _)
  · exact skips_when (exec_sneVxVy x y s) (bne_iff_toNat_ne _ _)

end Sys2Proof.Machine
end

section
/-! PROOFS. The immediates (43_load_add_immediate.md): a register write and an advance, and LD Vx, NN made of the two. -/

namespace Sys2Proof.Machine

/-- A register write changes that register alone. -/
theorem State.setReg_frame (s : State) (x : Reg) (b : Byte) : KeepsAllBut [.reg x] s (s.setReg x b) := by
  apply KeepsAllBut.of_fields
  case hr =>
    intro r hr
    have hne : r ≠ x := fun h => hr (h ▸ List.mem_singleton_self _)
    rw [State.reg_setReg, if_neg hne]
  case he => exact fun k _ => State.stackEntry_of_stack rfl k
  case hb => exact fun a _ => State.byteAt_of_mem rfl rfl a
  all_goals simp

theorem State.reg_advance (s : State) (r : Reg) : s.advance.reg r = s.reg r := State.reg_of_v s.advance_v r

/-- An advance after work that leaves `pc` alone is two further than before the work (40_step_cycle.md R73). -/
theorem Advances.of_pc {s t : State} (h : t.pc = s.pc) : Advances s t.advance := fun hs => by
  rw [State.advance_pc_toNat, h, Nat.mod_eq_of_lt hs]

theorem exec_ldVxNn (x : Reg) (nn : Byte) (s : State) : exec (.ldVxNn x nn) s = .next (s.setReg x nn).advance := rfl

/-- Settles O34: the row from the opcode map, and one register write followed by the advance. -/
theorem loadImmediateSetsRegister : Obligations.LoadImmediateSetsRegister := by
  refine ⟨RowDecodes.ldVxNn, fun x nn s => ⟨(s.setReg x nn).advance, exec_ldVxNn x nn s, ?_, ?_, ?_⟩⟩
  · rw [State.reg_advance, State.reg_setReg_self]
  · exact .of_pc (s.setReg_pc x nn)
  · exact (s.setReg_frame x nn).advance

end Sys2Proof.Machine
end

section
/-! PROOFS. The register-to-register ALU (44_alu.md): the copy, and the five that write a result and then a flag. -/

namespace Sys2Proof.Machine

/-! One register write and the advance. -/

/-- What an instruction does that writes one register and advances (44_alu.md section 1). -/
theorem writes_register {r : Result} {s : State} {x : Reg} {b : Byte} (hr : r = .next (s.setReg x b).advance) :
    ∃ t, r = .next t ∧ t.reg x = b ∧ Advances s t ∧ KeepsAllBut [.pc, .reg x] s t := by
  refine ⟨(s.setReg x b).advance, hr, ?_, ?_, ?_⟩
  · rw [State.reg_advance, State.reg_setReg_self]
  · exact .of_pc (s.setReg_pc x b)
  · exact (s.setReg_frame x b).advance

theorem exec_ldVxVy (x y : Reg) (s : State) : exec (.ldVxVy x y) s = .next (s.setReg x (s.reg y)).advance := rfl

/-- Settles O36: the row from the opcode map, and the one register write of `V[Y]`. -/
theorem loadRegisterCopies : Obligations.LoadRegisterCopies :=
  ⟨RowDecodes.ldVxVy, fun x y s => writes_register (exec_ldVxVy x y s)⟩

/-! A result, then a flag (R116): two register writes, and the second is what remains of `V[0xF]`. -/

@[simp] theorem State.setRegFlag_pc (s : State) (x : Reg) (b : Byte) (c : Bool) : (s.setRegFlag x b c).pc = s.pc := rfl

theorem State.reg_setRegFlag_flag (s : State) (x : Reg) (b : Byte) (c : Bool) :
    (s.setRegFlag x b c).reg regF = flagByte c := by
  rw [State.reg_setRegFlag, if_pos rfl]

theorem State.reg_setRegFlag_result (s : State) {x : Reg} (hx : x ≠ regF) (b : Byte) (c : Bool) :
    (s.setRegFlag x b c).reg x = b := by
  rw [State.reg_setRegFlag, if_neg hx, if_pos rfl]

/-- A result and a flag change the two registers they go to. -/
theorem State.setRegFlag_frame (s : State) (x : Reg) (b : Byte) (c : Bool) :
    KeepsAllBut [.reg x, .reg regF] s (s.setRegFlag x b c) := by
  have hresult : KeepsAllBut [.reg x, .reg regF] s (s.setReg x b) := (s.setReg_frame x b).mono (by simp)
  have hflag : KeepsAllBut [.reg x, .reg regF] (s.setReg x b) (s.setRegFlag x b c) :=
    (State.setReg_frame _ regF (flagByte c)).mono (by simp)
  exact hresult.trans hflag

/-- What an instruction does that writes a result with `R`, then a flag that is the number `n`, and advances (R116). -/
theorem writes_result_then_flag (R : Byte → Prop) {r : Result} {s : State} {x : Reg} {b : Byte} {c : Bool} {n : Nat}
    (hr : r = .next (s.setRegFlag x b c).advance) (hb : R b) (hc : (flagByte c).toNat = n) :
    ∃ t, r = .next t ∧ Advances s t ∧ KeepsAllBut [.pc, .reg x, .reg regF] s t ∧
      (x ≠ regF → R (t.reg x)) ∧ (t.reg regF).toNat = n := by
  refine ⟨(s.setRegFlag x b c).advance, hr, ?_, ?_, ?_, ?_⟩
  · exact .of_pc (s.setRegFlag_pc x b c)
  · exact (s.setRegFlag_frame x b c).advance
  · intro hx
    rwa [State.reg_advance, State.reg_setRegFlag_result s hx]
  · rwa [State.reg_advance, State.reg_setRegFlag_flag]

theorem exec_addVxVy (x y : Reg) (s : State) : exec (.addVxVy x y) s =
    .next (s.setRegFlag x (s.reg x + s.reg y) (addFlag (s.reg x) (s.reg y))).advance := rfl

theorem exec_subVxVy (x y : Reg) (s : State) : exec (.subVxVy x y) s =
    .next (s.setRegFlag x (s.reg x - s.reg y) (subFlag (s.reg x) (s.reg y))).advance := rfl

theorem exec_subnVxVy (x y : Reg) (s : State) : exec (.subnVxVy x y) s =
    .next (s.setRegFlag x (s.reg y - s.reg x) (subnFlag (s.reg x) (s.reg y))).advance := rfl

theorem exec_shrVxVy (x y : Reg) (s : State) : exec (.shrVxVy x y) s =
    .next (s.setRegFlag x (s.reg y >>> 1) (shrFlag (s.reg y))).advance := rfl

theorem exec_shlVxVy (x y : Reg) (s : State) : exec (.shlVxVy x y) s =
    .next (s.setRegFlag x (s.reg y <<< 1) (shlFlag (s.reg y))).advance := rfl

/-! The results and the flags, as the numbers they are. -/

/-- A difference of bytes, exact in the integers and then reduced (00_scope.md R8). -/
theorem sub_toNat_cast (a b : Byte) : ((a - b).toNat : Int) = ((a.toNat : Int) - (b.toNat : Int)) % 256 := by
  have ha := a.isLt
  have hb := b.isLt
  rw [BitVec.toNat_sub]
  omega

theorem shiftRight_one_toNat (a : Byte) : (a >>> 1).toNat = a.toNat / 2 := by
  rw [BitVec.toNat_ushiftRight, Nat.shiftRight_eq_div_pow, Nat.pow_one]

theorem shiftLeft_one_toNat (a : Byte) : (a <<< 1).toNat = a.toNat * 2 % 256 := by
  rw [BitVec.toNat_shiftLeft, Nat.shiftLeft_eq]

theorem flagByte_decide_toNat (P : Prop) [Decidable P] : (flagByte (decide P)).toNat = if P then 1 else 0 := by
  rw [flagByte_toNat]
  exact if_congr decide_eq_true_iff rfl rfl

theorem flagByte_addFlag_toNat (vx vy : Byte) :
    (flagByte (addFlag vx vy)).toNat = if 255 < vx.toNat + vy.toNat then 1 else 0 := flagByte_decide_toNat _

theorem flagByte_subFlag_toNat (vx vy : Byte) :
    (flagByte (subFlag vx vy)).toNat = if vy.toNat < vx.toNat then 1 else 0 := flagByte_decide_toNat _

theorem flagByte_subnFlag_toNat (vx vy : Byte) :
    (flagByte (subnFlag vx vy)).toNat = if vx.toNat < vy.toNat then 1 else 0 := flagByte_decide_toNat _

/-- Bit `k` of a byte, as a flag, is its digit of weight `2 ^ k`. -/
theorem flagByte_getLsbD_toNat (a : Byte) (k : Nat) : (flagByte (a.getLsbD k)).toNat = a.toNat / 2 ^ k % 2 := by
  rw [flagByte_toNat, ← BitVec.testBit_toNat, ← Nat.toNat_testBit, Bool.toNat, Bool.cond_eq_ite]

theorem flagByte_shrFlag_toNat (vy : Byte) : (flagByte (shrFlag vy)).toNat = vy.toNat % 2 := by
  rw [shrFlag, flagByte_getLsbD_toNat, Nat.pow_zero, Nat.div_one]

theorem flagByte_shlFlag_toNat (vy : Byte) : (flagByte (shlFlag vy)).toNat = vy.toNat / 128 := by
  have hvy := vy.isLt
  rw [shlFlag, flagByte_getLsbD_toNat]
  omega

/-- Settles O38: the three rows from the opcode map, and each instruction by its result and its flag as numbers. -/
theorem addAndSubtractSetResultThenFlag : Obligations.AddAndSubtractSetResultThenFlag := by
  refine ⟨RowDecodes.addVxVy, RowDecodes.subVxVy, RowDecodes.subnVxVy, fun x y s => ⟨?_, ?_, ?_⟩⟩
  · exact writes_result_then_flag (fun b => b.toNat = ((s.reg x).toNat + (s.reg y).toNat) % 256)
      (exec_addVxVy x y s) (BitVec.toNat_add _ _) (flagByte_addFlag_toNat _ _)
  · exact writes_result_then_flag (fun b => (b.toNat : Int) = ((s.reg x).toNat - (s.reg y).toNat : Int) % 256)
      (exec_subVxVy x y s) (sub_toNat_cast _ _) (flagByte_subFlag_toNat _ _)
  · exact writes_result_then_flag (fun b => (b.toNat : Int) = ((s.reg y).toNat - (s.reg x).toNat : Int) % 256)
      (exec_subnVxVy x y s) (sub_toNat_cast _ _) (flagByte_subnFlag_toNat _ _)

/-- Settles O39: the two rows from the opcode map, and each shift by its result and its flag as numbers. -/
theorem shiftsTakeVyAndKeepTheBitShiftedOut : Obligations.ShiftsTakeVyAndKeepTheBitShiftedOut := by
  refine ⟨RowDecodes.shrVxVy, RowDecodes.shlVxVy, fun x y s => ⟨?_, ?_⟩⟩
  · exact writes_result_then_flag (fun b => b.toNat = (s.reg y).toNat / 2)
      (exec_shrVxVy x y s) (shiftRight_one_toNat _) (flagByte_shrFlag_toNat _)
  · exact writes_result_then_flag (fun b => b.toNat = (s.reg y).toNat * 2 % 256)
      (exec_shlVxVy x y s) (shiftLeft_one_toNat _) (flagByte_shlFlag_toNat _)

end Sys2Proof.Machine
end

section
/-! PROOFS. The index register and memory (45_index_memory.md): the index load, the decimal store, the register load. -/

namespace Sys2Proof.Machine

/-! What the operations of this family leave alone. -/

/-- An index write changes `I` alone. -/
theorem State.setIndex_frame (s : State) (a : Word) : KeepsAllBut [.index] s (s.setIndex a) := by
  apply KeepsAllBut.of_fields
  case hi => exact fun h => absurd (List.mem_singleton_self _) h
  case hr => exact fun r _ => State.reg_of_v rfl r
  case he => exact fun k _ => State.stackEntry_of_stack rfl k
  case hb => exact fun b _ => State.byteAt_of_mem rfl rfl b
  all_goals simp

/-- A frame after one more write of `I`. -/
theorem KeepsAllBut.setIndex {s t : State} {changed : List Part} (h : KeepsAllBut changed s t) (a : Word) :
    KeepsAllBut (.index :: changed) s (t.setIndex a) :=
  (h.mono fun _ => List.mem_cons_of_mem _).trans ((t.setIndex_frame a).mono (by simp))

theorem State.reg_setIndex (s : State) (a : Word) (r : Reg) : (s.setIndex a).reg r = s.reg r :=
  State.reg_of_v (s.setIndex_v a) r

theorem State.byteAt_advance (s : State) (a : Nat) : s.advance.byteAt a = s.byteAt a :=
  State.byteAt_of_mem s.advance_mem s.advance_cfg a

@[simp] theorem State.memWrite_pc (s : State) (raw : Nat) (b : Byte) : (s.memWrite raw b).pc = s.pc := by
  rw [State.memWrite, State.noteAccess_pc, State.storeByte_pc]

theorem State.memWrite_out (s : State) (raw : Nat) (b : Byte) : (s.memWrite raw b).out =
    { s.out with diag := { s.out.diag with addrWrap := s.out.diag.addrWrap || accessWraps raw } } := by
  rw [State.memWrite, State.noteAccess_out, State.storeByte_out]

/-- A memory write changes the byte at its effective address and ADDR_WRAP (20_memory.md R33). -/
theorem State.memWrite_frame (s : State) (raw : Nat) (b : Byte) :
    KeepsAllBut [.flag .addrWrap, .byte (effectiveAddress raw)] s (s.memWrite raw b) := by
  have hstore := s.storeByte_frame raw b
  have hnote := (s.storeByte raw b).noteAccess_frame raw
  exact (hstore.mono (by simp)).trans (hnote.mono (by simp))

/-! The index load. -/

theorem exec_ldINnn (nnn : Nat) (s : State) :
    exec (.ldINnn nnn) s = .next (s.setIndex (addressOperand nnn)).advance := rfl

/-- Settles O41: the row from the opcode map, and one index write followed by the advance. -/
theorem loadIndexSetsAddress : Obligations.LoadIndexSetsAddress := by
  refine ⟨RowDecodes.ldINnn, fun nnn s hnnn => ⟨_, exec_ldINnn nnn s, ?_, ?_, ?_⟩⟩
  · rw [State.advance_i, State.setIndex_i, addressOperand_toNat hnnn]
  · exact .of_pc (s.setIndex_pc _)
  · exact (s.setIndex_frame _).advance

/-! The decimal store: three memory writes. -/

/-- The three memory writes of LD B, Vx (R123). -/
def storeDigits (s : State) (vx : Byte) : State :=
  ((s.memWrite (s.indexRaw 0) (hundredsDigit vx)).memWrite (s.indexRaw 1) (tensDigit vx)).memWrite
    (s.indexRaw 2) (onesDigit vx)

theorem exec_ldBVx (x : Reg) (s : State) : exec (.ldBVx x) s = .next (storeDigits s (s.reg x)).advance := rfl

@[simp] theorem storeDigits_pc (s : State) (vx : Byte) : (storeDigits s vx).pc = s.pc := by
  rw [storeDigits, State.memWrite_pc, State.memWrite_pc, State.memWrite_pc]

/-- The three accesses note a wrap exactly when the last one does. -/
theorem storeDigits_out (s : State) (vx : Byte) : (storeDigits s vx).out = { s.out with
    diag := { s.out.diag with addrWrap := s.out.diag.addrWrap || decide (4096 ≤ s.i.toNat + 2) } } := by
  have hwraps : (accessWraps (s.indexRaw 0) || accessWraps (s.indexRaw 1) || accessWraps (s.indexRaw 2)) =
      decide (4096 ≤ s.i.toNat + 2) := by
    rw [← wrapsBefore_last, wrapsBefore_succ, wrapsBefore_succ, wrapsBefore_succ]
    simp [wrapsBefore]
  simp only [storeDigits, State.memWrite_out, Bool.or_assoc, ← hwraps]

theorem storeDigits_frame (s : State) (vx : Byte) :
    KeepsAllBut (.flag .addrWrap :: bytesAtIndex s 3) s (storeDigits s vx) := by
  have hwrite (k : Nat) (hk : k < 3) (t : State) (b : Byte) :
      KeepsAllBut (.flag .addrWrap :: bytesAtIndex s 3) t (t.memWrite (s.indexRaw k) b) := by
    apply (t.memWrite_frame (s.indexRaw k) b).mono
    simpa [mem_bytesAtIndex] using ⟨k, hk, rfl⟩
  exact ((hwrite 0 (by decide) _ _).trans (hwrite 1 (by decide) _ _)).trans (hwrite 2 (by decide) _ _)

theorem byteAt_storeDigits (s : State) (vx : Byte) (a : Nat) : (storeDigits s vx).byteAt a =
    if a % 4096 = s.indexRaw 2 % 4096 then onesDigit vx
    else if a % 4096 = s.indexRaw 1 % 4096 then tensDigit vx
    else if a % 4096 = s.indexRaw 0 % 4096 then hundredsDigit vx
    else s.byteAt a := by
  simp only [storeDigits, State.byteAt_memWrite]

/-- Two of the 4096 addresses from `I` on are not the same (20_memory.md R36). -/
theorem State.indexRaw_mod_ne (s : State) {j k : Nat} (hj : j < 4096) (hk : k < 4096) (h : j ≠ k) :
    s.indexRaw j % 4096 ≠ s.indexRaw k % 4096 := by
  simp only [State.indexRaw]
  omega

theorem byteAt_storeDigits_hundreds (s : State) (vx : Byte) :
    (storeDigits s vx).byteAt (s.indexRaw 0) = hundredsDigit vx := by
  rw [byteAt_storeDigits, if_neg (s.indexRaw_mod_ne (by decide) (by decide) (by decide)),
    if_neg (s.indexRaw_mod_ne (by decide) (by decide) (by decide)), if_pos rfl]

theorem byteAt_storeDigits_tens (s : State) (vx : Byte) :
    (storeDigits s vx).byteAt (s.indexRaw 1) = tensDigit vx := by
  rw [byteAt_storeDigits, if_neg (s.indexRaw_mod_ne (by decide) (by decide) (by decide)), if_pos rfl]

theorem byteAt_storeDigits_ones (s : State) (vx : Byte) :
    (storeDigits s vx).byteAt (s.indexRaw 2) = onesDigit vx := by
  rw [byteAt_storeDigits, if_pos rfl]

/-- A byte at none of the three addresses is as before. -/
theorem byteAt_storeDigits_outside (s : State) (vx : Byte) {a : Nat}
    (h : ∀ k, k < 3 → effectiveAddress a ≠ effectiveAddress (s.indexRaw k)) :
    (storeDigits s vx).byteAt a = s.byteAt a := by
  simp only [effectiveAddress] at h
  rw [byteAt_storeDigits, if_neg (h 2 (by decide)), if_neg (h 1 (by decide)), if_neg (h 0 (by decide))]

/-! The digits, as the numbers they are. -/

theorem hundredsDigit_toNat (vx : Byte) : (hundredsDigit vx).toNat = vx.toNat / 100 := by
  have hvx := vx.isLt
  rw [hundredsDigit, BitVec.toNat_ofNat]
  omega

theorem tensDigit_toNat (vx : Byte) : (tensDigit vx).toNat = vx.toNat / 10 % 10 := by
  rw [tensDigit, BitVec.toNat_ofNat]
  omega

theorem onesDigit_toNat (vx : Byte) : (onesDigit vx).toNat = vx.toNat % 10 := by
  rw [onesDigit, BitVec.toNat_ofNat]
  omega

/-- Settles O43: the row from the opcode map, and the bytes, frame and outputs of the three memory writes. -/
theorem decimalStoreWritesThreeDigits : Obligations.DecimalStoreWritesThreeDigits := by
  refine ⟨RowDecodes.ldBVx, fun x s => ⟨_, exec_ldBVx x s, ?_, ?_, ?_, ?_, ?_, ?_, ?_⟩⟩
  · exact .of_pc (storeDigits_pc s _)
  · rw [State.byteAt_advance, byteAt_storeDigits_hundreds, hundredsDigit_toNat]
  · rw [State.byteAt_advance, byteAt_storeDigits_tens, tensDigit_toNat]
  · rw [State.byteAt_advance, byteAt_storeDigits_ones, onesDigit_toNat]
  · intro a ha
    rw [State.byteAt_advance, byteAt_storeDigits_outside s _ ha]
  · exact (storeDigits_frame s _).advance
  · rw [State.advance_out, storeDigits_out]

/-! The register load: the loop, then the write of `I`. -/

theorem exec_ldVxMem (x : Reg) (s : State) :
    exec (.ldVxMem x) s = .next ((loadRegs s (x.val + 1)).setIndex (s.indexAfter x)).advance := rfl

/-- One turn of the load changes its register and ADDR_WRAP. -/
theorem State.loadReg_frame (s : State) (k : Nat) :
    KeepsAllBut [.flag .addrWrap, .reg (Fin.ofNat 16 k)] s (s.loadReg k) := by
  have hread := s.noteAccess_frame (s.indexRaw k)
  have hset := (s.noteAccess (s.indexRaw k)).setReg_frame (Fin.ofNat 16 k) (s.byteAt (s.indexRaw k))
  exact (hread.mono (by simp)).trans (hset.mono (by simp))

theorem loadRegs_frame (s : State) (x : Reg) {n : Nat} (hn : n ≤ x.val + 1) :
    KeepsAllBut (.flag .addrWrap :: regsUpTo x) s (loadRegs s n) := by
  induction n with
  | zero => exact .refl _ s
  | succ n ih =>
    have hreg : .reg (Fin.ofNat 16 n) ∈ regsUpTo x := List.mem_map_of_mem (List.mem_range.mpr hn)
    rw [loadRegs_succ]
    exact (ih (by omega)).trans (((loadRegs s n).loadReg_frame n).mono (by simpa using hreg))

/-- The registers after the turns 0 to X of the load. -/
theorem reg_loadRegs_upTo (s : State) (x r : Reg) : (loadRegs s (x.val + 1)).reg r =
    if r ≤ x then s.byteAt (s.indexRaw r.val) else s.reg r := by
  rw [reg_loadRegs s (by omega)]
  exact if_congr Nat.lt_succ_iff rfl rfl

/-- Settles O45: the row from the opcode map, and the registers, frame and outputs of the loop. -/
theorem registerLoadReadsRangeAndMovesIndex : Obligations.RegisterLoadReadsRangeAndMovesIndex := by
  refine ⟨RowDecodes.ldVxMem, fun x s => ⟨_, exec_ldVxMem x s, ?_, ?_, ?_, ?_, ?_, ?_⟩⟩
  · exact .of_pc (loadRegs_pc s _)
  · intro k hk
    rw [State.reg_advance, State.reg_setIndex, reg_loadRegs_upTo, if_pos hk]
  · intro k hk
    rw [State.reg_advance, State.reg_setIndex, reg_loadRegs_upTo, if_neg (not_le_of_gt hk)]
  · rw [State.advance_i, State.setIndex_i, State.indexAfter_toNat]
  · exact ((loadRegs_frame s x le_rfl).setIndex _).advance
  · rw [State.advance_out, State.setIndex_out, loadRegs_out, wrapsBefore_last]

end Sys2Proof.Machine
end

section
/-! PROOFS. The display (46_display.md): the clear, and the sprite drawn twice. -/

namespace Sys2Proof.Machine

/-! The clear (R130). -/

theorem exec_cls (s : State) : exec .cls s = .next s.clearScreen.advance := rfl

/-- A clear changes the screen alone. -/
theorem State.clearScreen_frame (s : State) : KeepsAllBut [.screen] s s.clearScreen := by
  apply KeepsAllBut.of_fields
  case hf => exact fun h => absurd (List.mem_singleton_self _) h
  case hr => exact fun r _ => State.reg_of_v rfl r
  case he => exact fun k _ => State.stackEntry_of_stack rfl k
  case hb => exact fun a _ => State.byteAt_of_mem rfl rfl a
  all_goals simp

theorem State.pixel_advance (s : State) (row col : Nat) : s.advance.pixel row col = s.pixel row col :=
  State.pixel_of_fb s.advance_fb row col

/-- A step that fetches the word of an instruction performs that instruction after the fetch (40_step_cycle.md R71). -/
theorem step_of_coming {s : State} {i : Instr} (h : s.coming = .instr i) :
    step s = finishTurn (exec i s.begin.fetch.2) := by
  rw [State.coming] at h
  simp only [step_eq, runWord, h]

theorem step_cls {s : State} (h : s.coming = .instr .cls) :
    step s = .next s.begin.fetch.2.clearScreen.advance.endTurn := by
  rw [step_of_coming h, exec_cls, finishTurn]

/-- Settles O47: the row from the opcode map, the clear and the advance, and the outputs of a step, which begins with
them cleared. -/
theorem clearTurnsEveryPixelOff : Obligations.ClearTurnsEveryPixelOff := by
  refine ⟨RowDecodes.cls, fun s => ⟨_, exec_cls s, ?_, ?_, ?_, fun h => ⟨_, step_cls h, ?_⟩⟩⟩
  · exact .of_pc s.clearScreen_pc
  · exact s.clearScreen_frame.advance
  · intro row col
    rw [State.pixel_advance, State.pixel_clearScreen]
  · rw [State.endTurn_out, State.advance_out, State.clearScreen_out, State.fetch_out, State.begin_out]
    rfl

/-! The sprite draw (R131), in terms of the pixels under a drawn 1 bit. -/

/-- The state after DRW Vx, Vy, N: `V[0xF] <- 0`, the rows that are not clipped, `redraw <- 1` and the advance. -/
def afterDraw (s : State) (x y : Reg) (n : Nat) : State :=
  (drawRows (s.setReg regF (flagByte false)) (s.originColumn x) (s.originRow y)
    (rowsDrawn (s.originRow y) n)).requestRedraw.advance

theorem exec_drwVxVyN (x y : Reg) (n : Nat) (s : State) :
    exec (.drwVxVyN x y n) s = .next (afterDraw s x y n) := rfl

@[simp] theorem afterDraw_mem (s : State) (x y : Reg) (n : Nat) : (afterDraw s x y n).mem = s.mem :=
  drawRows_mem _ _ _ _

@[simp] theorem afterDraw_cfg (s : State) (x y : Reg) (n : Nat) : (afterDraw s x y n).cfg = s.cfg :=
  drawRows_cfg _ _ _ _

@[simp] theorem afterDraw_i (s : State) (x y : Reg) (n : Nat) : (afterDraw s x y n).i = s.i :=
  drawRows_i _ _ _ _

theorem State.originColumn_lt (s : State) (x : Reg) : s.originColumn x < 64 := Nat.mod_lt _ (by decide)

theorem State.originRow_add_rowsDrawn_le (s : State) (y : Reg) (n : Nat) :
    s.originRow y + rowsDrawn (s.originRow y) n ≤ 32 := by
  have hy : s.originRow y < 32 := Nat.mod_lt _ (by decide)
  unfold rowsDrawn
  omega

/-- The pixels under a drawn 1 bit are those the loops reach: clipping to the grid bounds the rows and the columns. -/
theorem drawnAt_iff {s : State} {x y : Reg} {n row col : Nat} :
    DrawnAt s x y n row col ↔ ∃ r, r < rowsDrawn (s.originRow y) n ∧ row = s.originRow y + r ∧
      ∃ c, c < columnsDrawn (s.originColumn x) ∧ col = s.originColumn x + c ∧
        spriteBit (s.byteAt (s.indexRaw r)) c = true := by
  simp only [DrawnAt, rowsDrawn, columnsDrawn, spriteBit, State.originRow, State.originColumn]
  constructor
  · rintro ⟨hrow, hcol, r, hr, c, hc, hreq, hceq, hbit⟩
    exact ⟨r, by omega, hreq, c, by omega, hceq, hbit⟩
  · rintro ⟨r, hr, hreq, c, hc, hceq, hbit⟩
    exact ⟨by omega, by omega, r, by omega, c, by omega, hreq, hceq, hbit⟩

/-- The same sprite at the same position has its 1 bits at the same pixels. -/
theorem drawnAt_congr {s t : State} {x y : Reg} {n : Nat} (hmem : t.mem = s.mem) (hcfg : t.cfg = s.cfg) (hi : t.i = s.i)
    (hx : (t.reg x).toNat % 64 = (s.reg x).toNat % 64) (hy : (t.reg y).toNat % 32 = (s.reg y).toNat % 32)
    (row col : Nat) : DrawnAt t x y n row col ↔ DrawnAt s x y n row col := by
  simp only [DrawnAt, State.byteAt_of_mem hmem hcfg, State.indexRaw, hi, hx, hy]

/-- A draw inverts exactly the pixels under a drawn 1 bit. -/
theorem pixel_afterDraw (s : State) (x y : Reg) (n row col : Nat) :
    (afterDraw s x y n).pixel row col = (s.pixel row col != decide (DrawnAt s x y n row col)) := by
  rw [afterDraw, State.pixel_advance, State.pixel_of_fb (State.requestRedraw_fb _),
    pixel_drawRows _ (s.originColumn_lt x) (s.originRow_add_rowsDrawn_le y n)]
  exact congrArg₂ _ (State.pixel_of_fb rfl row col) (decide_eq_decide.mpr drawnAt_iff.symm)

/-- A pixel under a drawn 1 bit that is on, as the loops find it. -/
theorem collides_iff {s : State} {x y : Reg} {n : Nat} :
    (∃ row col, DrawnAt s x y n row col ∧ s.pixel row col = true) ↔
      ∃ r, r < rowsDrawn (s.originRow y) n ∧ ∃ c, c < columnsDrawn (s.originColumn x) ∧
        spriteBit (s.byteAt (s.indexRaw r)) c = true ∧ s.pixel (s.originRow y + r) (s.originColumn x + c) = true := by
  constructor
  · rintro ⟨_, _, hdrawn, hon⟩
    obtain ⟨r, hr, rfl, c, hc, rfl, hbit⟩ := drawnAt_iff.mp hdrawn
    exact ⟨r, hr, c, hc, hbit, hon⟩
  · rintro ⟨r, hr, c, hc, hbit, hon⟩
    exact ⟨_, _, drawnAt_iff.mpr ⟨r, hr, rfl, c, hc, rfl, hbit⟩, hon⟩

/-- The flag of a draw is 1 on a collision, a pixel under a drawn 1 bit that was on, and else 0. -/
theorem regF_afterDraw (s : State) (x y : Reg) (n : Nat)
    [Decidable (∃ row col, DrawnAt s x y n row col ∧ s.pixel row col = true)] :
    (afterDraw s x y n).reg regF =
      if ∃ row col, DrawnAt s x y n row col ∧ s.pixel row col = true then 1 else 0 := by
  rw [afterDraw, State.reg_advance, State.reg_of_v (State.requestRedraw_v _),
    regF_drawRows _ (s.originColumn_lt x) (s.originRow_add_rowsDrawn_le y n)]
  exact if_congr collides_iff.symm rfl (State.reg_setReg_self s regF _)

theorem regF_afterDraw_eq_one_iff {s : State} {x y : Reg} {n : Nat} :
    (afterDraw s x y n).reg regF = 1 ↔ ∃ row col, DrawnAt s x y n row col ∧ s.pixel row col = true := by
  classical
  rw [regF_afterDraw]
  exact (show (1 : Byte) ≠ 0 by decide).ite_eq_left_iff

theorem regF_afterDraw_zero_or_one (s : State) (x y : Reg) (n : Nat) :
    (afterDraw s x y n).reg regF = 0 ∨ (afterDraw s x y n).reg regF = 1 := by
  classical
  rw [regF_afterDraw]
  exact (ite_eq_or_eq _ _ _).symm

/-! The second draw (R133): it inverts the pixels the first one inverted, and finds them inverted. -/

/-- Where the second draw collides, the first found a pixel off. -/
theorem collides_afterDraw_iff {s : State} {x y : Reg} {n : Nat}
    (hsame : ∀ row col, DrawnAt (afterDraw s x y n) x y n row col ↔ DrawnAt s x y n row col) :
    (∃ row col, DrawnAt (afterDraw s x y n) x y n row col ∧ (afterDraw s x y n).pixel row col = true) ↔
      ∃ row col, DrawnAt s x y n row col ∧ s.pixel row col = false := by
  refine exists_congr fun row => exists_congr fun col => ?_
  rw [hsame, pixel_afterDraw]
  exact and_congr_right fun hdrawn => by simp [hdrawn]

theorem fb_afterDraw_afterDraw {s : State} {x y : Reg} {n : Nat}
    (hsame : ∀ row col, DrawnAt (afterDraw s x y n) x y n row col ↔ DrawnAt s x y n row col) :
    (afterDraw (afterDraw s x y n) x y n).fb = s.fb := by
  apply State.fb_of_pixel
  intro row col
  simp only [pixel_afterDraw, hsame, Bool.bne_assoc, bne_self_eq_false, Bool.bne_false]

/-- Settles O49: the two draws have their 1 bits at the same pixels, so the second undoes the first and collides where the
screen was off before the first. -/
theorem drawingTwiceRestoresTheScreen : Obligations.DrawingTwiceRestoresTheScreen := by
  intro x y n s t hexec hx hy
  obtain rfl : afterDraw s x y n = t := Host.Outcome.next.inj hexec
  have hsame (row col : Nat) : DrawnAt (afterDraw s x y n) x y n row col ↔ DrawnAt s x y n row col :=
    drawnAt_congr (afterDraw_mem s x y n) (afterDraw_cfg s x y n) (afterDraw_i s x y n) hx hy row col
  have hflag := regF_afterDraw_eq_one_iff.trans (collides_afterDraw_iff hsame)
  refine ⟨_, exec_drwVxVyN x y n _, fb_afterDraw_afterDraw hsame, hflag, regF_afterDraw_zero_or_one _ x y n, ?_⟩
  intro hclear
  simp only [hflag, hclear, and_true]

end Sys2Proof.Machine
end

section
/-! PROOFS. The random number (47_input_timers_random.md R146): what RND writes, and that no other instruction takes a byte. -/

namespace Sys2Proof.Machine

/-! What RND does. -/

/-- Taking a random byte changes `rng_taken` alone. -/
theorem State.takeRngByte_frame (s : State) : KeepsAllBut [.rngTaken] s s.takeRngByte := by
  apply KeepsAllBut.of_fields
  case hg => exact fun h => absurd (List.mem_singleton_self _) h
  case hr => exact fun r _ => State.reg_of_v s.takeRngByte_v r
  case he => exact fun k _ => State.stackEntry_of_stack s.takeRngByte_stack k
  case hb => exact fun a _ => State.byteAt_of_mem s.takeRngByte_mem s.takeRngByte_cfg a
  all_goals simp

theorem exec_rndVxNn (x : Reg) (nn : Byte) (s : State) :
    exec (.rndVxNn x nn) s = .next (s.setReg x (s.inputs.rngByte &&& nn)).takeRngByte.advance := rfl

/-- A register write and the taking of a byte change that register and `rng_taken`. -/
theorem State.setReg_takeRngByte_frame (s : State) (x : Reg) (b : Byte) :
    KeepsAllBut [.reg x, .rngTaken] s (s.setReg x b).takeRngByte := by
  have hset : KeepsAllBut [.reg x, .rngTaken] s (s.setReg x b) := (s.setReg_frame x b).mono (by simp)
  have htake : KeepsAllBut [.reg x, .rngTaken] (s.setReg x b) (s.setReg x b).takeRngByte :=
    (State.takeRngByte_frame _).mono (by simp)
  exact hset.trans htake

/-! No other instruction writes `rng_taken`. -/

theorem rngTaken_of_execCall {nnn : Nat} {s t : State} (h : exec (.call nnn) s = .next t) :
    t.out.rngTaken = s.out.rngTaken := by
  change execCall nnn s = .next t at h
  unfold execCall at h
  split at h
  · cases h; rfl -- the stack is full
  · cases h; rfl

theorem rngTaken_of_execRet {s t : State} (h : exec .ret s = .next t) : t.out.rngTaken = s.out.rngTaken := by
  change execRet s = .next t at h
  unfold execRet at h
  split at h
  · cases h; rfl -- the stack is empty
  · cases h; rfl

theorem rngTaken_of_execLdVxK {x : Reg} {s t : State} (h : exec (.ldVxK x) s = .next t) :
    t.out.rngTaken = s.out.rngTaken := by
  obtain rfl := Host.Outcome.next.inj h
  split
  · rfl -- no key is held
  · split
    · rfl -- no press event is there
    · rfl

theorem drawRows_rngTaken (s : State) (x0 y0 m : Nat) : (drawRows s x0 y0 m).out.rngTaken = s.out.rngTaken := by
  rw [drawRows_out]

theorem storeDigits_rngTaken (s : State) (vx : Byte) : (storeDigits s vx).out.rngTaken = s.out.rngTaken := by
  rw [storeDigits_out]

theorem storeRegs_rngTaken (s : State) (n : Nat) : (storeRegs s n).out.rngTaken = s.out.rngTaken := by
  rw [storeRegs_out]

theorem loadRegs_rngTaken (s : State) (n : Nat) : (loadRegs s n).out.rngTaken = s.out.rngTaken := by
  rw [loadRegs_out]

/-- An instruction other than RND takes no byte: those that can fault or wait, and those that access memory at `I`, each
by its own lemma; the rest do not touch the outputs. -/
theorem rngTaken_of_exec_of_ne_rnd {i : Instr} {s t : State} (hi : ∀ x nn, i ≠ .rndVxNn x nn)
    (h : exec i s = .next t) : t.out.rngTaken = s.out.rngTaken := by
  cases i
  case rndVxNn x nn => exact absurd rfl (hi x nn)
  case call nnn => exact rngTaken_of_execCall h
  case ret => exact rngTaken_of_execRet h
  case ldVxK x => exact rngTaken_of_execLdVxK h
  case drwVxVyN x y n =>
    obtain rfl := Host.Outcome.next.inj h
    exact drawRows_rngTaken (s.setReg regF (flagByte false)) _ _ _
  case ldBVx x =>
    obtain rfl := Host.Outcome.next.inj h
    exact storeDigits_rngTaken s (s.reg x)
  case ldMemVx x =>
    obtain rfl := Host.Outcome.next.inj h
    exact storeRegs_rngTaken s (x.val + 1)
  case ldVxMem x =>
    obtain rfl := Host.Outcome.next.inj h
    exact loadRegs_rngTaken s (x.val + 1)
  all_goals
    obtain rfl := Host.Outcome.next.inj h
    rfl

/-! What a step can do. -/

theorem finishTurn_eq_next {r : Result} {t : State} (h : finishTurn r = .next t) :
    ∃ u, r = .next u ∧ t = u.endTurn := by
  cases r with
  | next u => exact ⟨u, rfl, (Host.Outcome.next.inj h).symm⟩
  | fault f => cases h
  | refused f => cases h

/-- A step answers what the fetched word's instruction answers, or the invalid instruction, with the turn ended
(40_step_cycle.md R71, R76). -/
theorem step_cases {s t : State} (h : step s = .next t) :
    (∃ i u, s.coming = .instr i ∧ exec i s.begin.fetch.2 = .next u ∧ t = u.endTurn) ∨
      ∃ r, s.coming = .invalid r ∧ t = (s.begin.fetch.2.raise .invalidInstruction).advance.endTurn := by
  cases hc : s.coming with
  | instr i =>
    rw [step_of_coming hc] at h
    obtain ⟨u, hu, ht⟩ := finishTurn_eq_next h
    exact .inl ⟨i, u, rfl, hu, ht⟩
  | invalid r =>
    have hstep : step s = finishTurn (execInvalid s.begin.fetch.2) := by
      rw [State.coming] at hc
      simp only [step_eq, runWord, hc]
    obtain ⟨u, hu, ht⟩ := finishTurn_eq_next (hstep.symm.trans h)
    obtain rfl := Host.Outcome.next.inj hu
    exact .inr ⟨r, rfl, ht⟩

/-- The instruction of a step begins with no byte taken (R71 step 1). -/
theorem State.fetch_begin_rngTaken (s : State) : s.begin.fetch.2.out.rngTaken = false := by
  rw [State.fetch_out, State.begin_out]
  rfl

/-- A byte is consumed by RND and by no other instruction (R146). -/
theorem rngTaken_of_step_iff {s t : State} (h : step s = .next t) :
    t.out.rngTaken = true ↔ ∃ x nn, s.coming = .instr (.rndVxNn x nn) := by
  obtain ⟨i, u, hc, hu, rfl⟩ | ⟨r, hc, rfl⟩ := step_cases h
  · by_cases hi : ∃ x nn, i = .rndVxNn x nn
    · obtain ⟨x, nn, rfl⟩ := hi
      obtain rfl := Host.Outcome.next.inj hu
      exact iff_of_true rfl ⟨x, nn, hc⟩
    · push Not at hi
      have hkept : u.endTurn.out.rngTaken = false :=
        (rngTaken_of_exec_of_ne_rnd hi hu).trans s.fetch_begin_rngTaken
      rw [hkept, hc]
      simp [hi]
  · have hkept : (s.begin.fetch.2.raise .invalidInstruction).advance.endTurn.out.rngTaken = false :=
      s.fetch_begin_rngTaken
    rw [hkept, hc]
    simp

/-- Settles O52: the row from the opcode map, a register write and the taking of the byte, and the output of a step by what
its instruction does. -/
theorem randomByteIsMasked : Obligations.RandomByteIsMasked := by
  refine ⟨RowDecodes.rndVxNn, fun x nn s => ⟨_, exec_rndVxNn x nn s, ?_, ?_, ?_, ?_⟩, fun _ _ => rngTaken_of_step_iff⟩
  · intro k
    rw [State.reg_advance, State.reg_of_v (State.takeRngByte_v _), State.reg_setReg_self, BitVec.getLsbD_and]
  · exact .of_pc (State.takeRngByte_pc _)
  · rw [State.advance_out, State.takeRngByte_out, State.setReg_out]
  · exact (s.setReg_takeRngByte_frame x _).advance

end Sys2Proof.Machine
end

section
/-! PROOFS. The encoder and the decoder (30_encoding.md R55, R59, R60): an encoded instruction decodes to itself, a decoded
word encodes to itself but for the ignored bits, and the words of no row. -/

namespace Sys2Proof

/-! The fields of the words the encoder puts together. -/

theorem fieldNnn_wordA {cls nnn : Nat} (hc : cls < 16) (hn : nnn < 4096) : fieldNnn (wordA cls nnn) = nnn := by
  rw [fieldNnn_toNat, wordA_toNat hc hn]
  omega

theorem fieldX_wordXI {cls nn : Nat} (x : Reg) (hc : cls < 16) (hn : nn < 256) : fieldX (wordXI cls x nn) = x := by
  apply Fin.ext
  rw [fieldX_val, wordXI_toNat x hc hn]
  omega

theorem fieldNn_wordXI {cls : Nat} (x : Reg) (nn : Byte) (hc : cls < 16) : fieldNn (wordXI cls x nn.toNat) = nn := by
  apply BitVec.eq_of_toNat_eq
  rw [fieldNn_toNat, wordXI_toNat x hc nn.isLt]
  omega

theorem fieldX_wordXY {cls n : Nat} (x y : Reg) (hc : cls < 16) (hn : n < 16) : fieldX (wordXY cls x y n) = x := by
  apply Fin.ext
  rw [fieldX_val, wordXY_toNat x y hc hn]
  omega

theorem fieldY_wordXY {cls n : Nat} (x y : Reg) (hc : cls < 16) (hn : n < 16) : fieldY (wordXY cls x y n) = y := by
  apply Fin.ext
  rw [fieldY_val, wordXY_toNat x y hc hn]
  omega

theorem fieldN_wordXY {cls n : Nat} (x y : Reg) (hc : cls < 16) (hn : n < 16) : fieldN (wordXY cls x y n) = n := by
  rw [fieldN_toNat, wordXY_toNat x y hc hn]
  omega

namespace Machine

/-! From an instruction to its word and back, one lemma per format (R52): the word lies in its row, and the row's fields
give the operands back. -/

section Formats

variable {m mask : Word} {cls n : Nat} {x y : Reg}

theorem decodeWord_wordA {f : Nat → Instr} (hrow : RowDecodes m mask fun w => f (fieldNnn w)) (hn : n < 4096)
    (hm : wordA cls n &&& mask = m) (hc : cls < 16) : decodeWord (wordA cls n) = .instr (f n) := by
  simp only [hrow _ hm, fieldNnn_wordA hc hn]

theorem decodeWord_wordXI {nn : Byte} {f : Reg → Byte → Instr}
    (hrow : RowDecodes m mask fun w => f (fieldX w) (fieldNn w)) (hm : wordXI cls x nn.toNat &&& mask = m)
    (hc : cls < 16) : decodeWord (wordXI cls x nn.toNat) = .instr (f x nn) := by
  simp only [hrow _ hm, fieldX_wordXI x hc nn.isLt, fieldNn_wordXI x nn hc]

theorem decodeWord_wordXF {f : Reg → Instr} (hrow : RowDecodes m mask fun w => f (fieldX w))
    (hm : wordXI cls x n &&& mask = m) (hc : cls < 16) (hn : n < 256) : decodeWord (wordXI cls x n) = .instr (f x) := by
  simp only [hrow _ hm, fieldX_wordXI x hc hn]

theorem decodeWord_wordXY {f : Reg → Reg → Instr} (hrow : RowDecodes m mask fun w => f (fieldX w) (fieldY w))
    (hm : wordXY cls x y n &&& mask = m) (hc : cls < 16) (hn : n < 16) :
    decodeWord (wordXY cls x y n) = .instr (f x y) := by
  simp only [hrow _ hm, fieldX_wordXY x y hc hn, fieldY_wordXY x y hc hn]

theorem decodeWord_wordXYN {f : Reg → Reg → Nat → Instr}
    (hrow : RowDecodes m mask fun w => f (fieldX w) (fieldY w) (fieldN w)) (hn : n < 16)
    (hm : wordXY cls x y n &&& mask = m) (hc : cls < 16) : decodeWord (wordXY cls x y n) = .instr (f x y n) := by
  simp only [hrow _ hm, fieldX_wordXY x y hc hn, fieldY_wordXY x y hc hn, fieldN_wordXY x y hc hn]

end Formats

/-- The word of a well-formed instruction decodes to it: the row of the opcode map, and the format of the word. -/
theorem decodeWord_encode {i : Instr} (h : i.wellFormed = true) : decodeWord (encode i) = .instr i := by
  cases i with
  | cls => exact RowDecodes.cls _ (Laws.EncodesItsRow.cls h)
  | ret => exact RowDecodes.ret _ (Laws.EncodesItsRow.ret h)
  | jp nnn => exact decodeWord_wordA RowDecodes.jp (of_decide_eq_true h) (Laws.EncodesItsRow.jp nnn h) (by decide)
  | call nnn => exact decodeWord_wordA RowDecodes.call (of_decide_eq_true h) (Laws.EncodesItsRow.call nnn h) (by decide)
  | seVxNn x nn => exact decodeWord_wordXI RowDecodes.seVxNn (Laws.EncodesItsRow.seVxNn x nn h) (by decide)
  | sneVxNn x nn => exact decodeWord_wordXI RowDecodes.sneVxNn (Laws.EncodesItsRow.sneVxNn x nn h) (by decide)
  | seVxVy x y => exact decodeWord_wordXY RowDecodes.seVxVy (Laws.EncodesItsRow.seVxVy x y h) (by decide) (by decide)
  | ldVxNn x nn => exact decodeWord_wordXI RowDecodes.ldVxNn (Laws.EncodesItsRow.ldVxNn x nn h) (by decide)
  | addVxNn x nn => exact decodeWord_wordXI RowDecodes.addVxNn (Laws.EncodesItsRow.addVxNn x nn h) (by decide)
  | ldVxVy x y => exact decodeWord_wordXY RowDecodes.ldVxVy (Laws.EncodesItsRow.ldVxVy x y h) (by decide) (by decide)
  | orVxVy x y => exact decodeWord_wordXY RowDecodes.orVxVy (Laws.EncodesItsRow.orVxVy x y h) (by decide) (by decide)
  | andVxVy x y => exact decodeWord_wordXY RowDecodes.andVxVy (Laws.EncodesItsRow.andVxVy x y h) (by decide) (by decide)
  | xorVxVy x y => exact decodeWord_wordXY RowDecodes.xorVxVy (Laws.EncodesItsRow.xorVxVy x y h) (by decide) (by decide)
  | addVxVy x y => exact decodeWord_wordXY RowDecodes.addVxVy (Laws.EncodesItsRow.addVxVy x y h) (by decide) (by decide)
  | subVxVy x y => exact decodeWord_wordXY RowDecodes.subVxVy (Laws.EncodesItsRow.subVxVy x y h) (by decide) (by decide)
  | shrVxVy x y => exact decodeWord_wordXY RowDecodes.shrVxVy (Laws.EncodesItsRow.shrVxVy x y h) (by decide) (by decide)
  | subnVxVy x y =>
    exact decodeWord_wordXY RowDecodes.subnVxVy (Laws.EncodesItsRow.subnVxVy x y h) (by decide) (by decide)
  | shlVxVy x y => exact decodeWord_wordXY RowDecodes.shlVxVy (Laws.EncodesItsRow.shlVxVy x y h) (by decide) (by decide)
  | sneVxVy x y => exact decodeWord_wordXY RowDecodes.sneVxVy (Laws.EncodesItsRow.sneVxVy x y h) (by decide) (by decide)
  | ldINnn nnn =>
    exact decodeWord_wordA RowDecodes.ldINnn (of_decide_eq_true h) (Laws.EncodesItsRow.ldINnn nnn h) (by decide)
  | jpVfNnn nnn =>
    exact decodeWord_wordA RowDecodes.jpVfNnn (of_decide_eq_true h) (Laws.EncodesItsRow.jpVfNnn nnn h) (by decide)
  | rndVxNn x nn => exact decodeWord_wordXI RowDecodes.rndVxNn (Laws.EncodesItsRow.rndVxNn x nn h) (by decide)
  | drwVxVyN x y n =>
    exact decodeWord_wordXYN RowDecodes.drwVxVyN (of_decide_eq_true h) (Laws.EncodesItsRow.drwVxVyN x y n h) (by decide)
  | skpVx x => exact decodeWord_wordXF RowDecodes.skpVx (Laws.EncodesItsRow.skpVx x h) (by decide) (by decide)
  | sknpVx x => exact decodeWord_wordXF RowDecodes.sknpVx (Laws.EncodesItsRow.sknpVx x h) (by decide) (by decide)
  | ldVxDt x => exact decodeWord_wordXF RowDecodes.ldVxDt (Laws.EncodesItsRow.ldVxDt x h) (by decide) (by decide)
  | ldVxK x => exact decodeWord_wordXF RowDecodes.ldVxK (Laws.EncodesItsRow.ldVxK x h) (by decide) (by decide)
  | ldDtVx x => exact decodeWord_wordXF RowDecodes.ldDtVx (Laws.EncodesItsRow.ldDtVx x h) (by decide) (by decide)
  | ldStVx x => exact decodeWord_wordXF RowDecodes.ldStVx (Laws.EncodesItsRow.ldStVx x h) (by decide) (by decide)
  | addIVx x => exact decodeWord_wordXF RowDecodes.addIVx (Laws.EncodesItsRow.addIVx x h) (by decide) (by decide)
  | ldFVx x => exact decodeWord_wordXF RowDecodes.ldFVx (Laws.EncodesItsRow.ldFVx x h) (by decide) (by decide)
  | ldBVx x => exact decodeWord_wordXF RowDecodes.ldBVx (Laws.EncodesItsRow.ldBVx x h) (by decide) (by decide)
  | ldMemVx x => exact decodeWord_wordXF RowDecodes.ldMemVx (Laws.EncodesItsRow.ldMemVx x h) (by decide) (by decide)
  | ldVxMem x => exact decodeWord_wordXF RowDecodes.ldVxMem (Laws.EncodesItsRow.ldVxMem x h) (by decide) (by decide)

/-- Settles O1: the word decodes to its instruction, and the two bytes put together again are the word. -/
theorem decodeOfEncodeIsTheInstruction : Obligations.DecodeOfEncodeIsTheInstruction := by
  intro i h
  refine ⟨decodeWord_encode h, ?_⟩
  rw [encodeBytes, decodeBytes, wordOfBytes_bytes, decodeWord_encode h]

/-! From a word to its instruction and back: a word is put together from its class and the fields of its format (R51). -/

theorem wordA_fields {w : Word} {c : Nat} (hc : fieldClass w = c) : wordA c (fieldNnn w) = w := by
  apply BitVec.eq_of_toNat_eq
  subst hc
  rw [wordA_toNat (fieldClass_lt w) (by rw [fieldNnn_toNat]; omega), fieldClass_toNat, fieldNnn_toNat]
  omega

theorem wordXY_fields {w : Word} {c n : Nat} (hc : fieldClass w = c) (hn : fieldN w = n) :
    wordXY c (fieldX w) (fieldY w) n = w := by
  apply BitVec.eq_of_toNat_eq
  subst hc hn
  rw [wordXY_toNat _ _ (fieldClass_lt w) (by rw [fieldN_toNat]; omega), fieldClass_toNat, fieldX_val, fieldY_val,
    fieldN_toNat]
  omega

theorem wordXI_fields {w : Word} {c n : Nat} (hc : fieldClass w = c) (hn : (fieldNn w).toNat = n) :
    wordXI c (fieldX w) n = w := by
  apply BitVec.eq_of_toNat_eq
  subst hc hn
  rw [wordXI_toNat _ (fieldClass_lt w) (fieldNn w).isLt, fieldClass_toNat, fieldX_val, fieldNn_toNat]
  omega

/-- Classes 0x5 and 0x9 ignore N: the encoder's word has the other three nibbles of the decoded one (R56, log 9). -/
theorem wordXY_fields_but_N {w : Word} {c : Nat} (hc : fieldClass w = c) :
    wordXY c (fieldX w) (fieldY w) 0 &&& ~~~0x000F = w &&& ~~~0x000F := by
  have hlt : c < 16 := hc ▸ fieldClass_lt w
  apply word_ext
  · rw [fieldClass_and (by decide), fieldClass_and (by decide), hc, fieldClass_toNat,
      wordXY_toNat _ _ hlt (by decide)]
    omega
  · rw [fieldX_and (by decide), fieldX_and (by decide), fieldX_wordXY _ _ hlt (by decide)]
  · rw [fieldY_and (by decide), fieldY_and (by decide), fieldY_wordXY _ _ hlt (by decide)]
  · rw [fieldN_and_zero (by decide), fieldN_and_zero (by decide)]

section Restores

/-- The instruction is well formed, and its word is the word `w` on the bits its row does not ignore. -/
def RestoredBy (w : Word) (i : Instr) : Prop :=
  i.wellFormed = true ∧ encode i &&& ~~~i.ignoredBits = w &&& ~~~i.ignoredBits

variable {w : Word} {i : Instr}

theorem RestoredBy.of_encode (hi : i.wellFormed = true) (h : encode i = w) : RestoredBy w i := ⟨hi, by rw [h]⟩

theorem addressFits_fieldNnn (w : Word) : addressFits (fieldNnn w) = true :=
  decide_eq_true (by rw [fieldNnn_toNat]; omega)

theorem rowCountFits_fieldN (w : Word) : rowCountFits (fieldN w) = true :=
  decide_eq_true (by rw [fieldN_toNat]; omega)

/-- CLS and RET: all that is not ignored is what the row's mask tests. -/
theorem restoredBy_of_decodeClass0 (hc : fieldClass w = 0x0) (h : decodeClass0 w = .instr i) : RestoredBy w i := by
  have hrow := row_of_decodeClass0 hc h
  unfold decodeClass0 at h
  split at h <;> cases h
  all_goals exact ⟨rfl, hrow.symm⟩

theorem restoredBy_of_decodeClass8 (hc : fieldClass w = 0x8) (h : decodeClass8 w = .instr i) : RestoredBy w i := by
  unfold decodeClass8 at h
  split at h <;> cases h
  all_goals
    next hn => exact .of_encode rfl (wordXY_fields hc hn)

theorem restoredBy_of_decodeClassE (hc : fieldClass w = 0xE) (h : decodeClassE w = .instr i) : RestoredBy w i := by
  unfold decodeClassE at h
  split at h <;> cases h
  all_goals
    next hn => exact .of_encode rfl (wordXI_fields hc hn)

theorem restoredBy_of_decodeClassF (hc : fieldClass w = 0xF) (h : decodeClassF w = .instr i) : RestoredBy w i := by
  unfold decodeClassF at h
  split at h <;> cases h
  all_goals
    next hn => exact .of_encode rfl (wordXI_fields hc hn)

/-- The class has four bits, so the decoder's last arm is class 0xF (R59). -/
theorem fieldClass_eq_F (h : ∀ c < 15, fieldClass w ≠ c) : fieldClass w = 0xF := by
  have hlt := fieldClass_lt w
  have hge : ¬fieldClass w < 15 := fun hc => h _ hc rfl
  omega

theorem restoredBy_of_decodeWord (h : decodeWord w = .instr i) : RestoredBy w i := by
  unfold decodeWord at h
  split at h
  case h_1 hc => exact restoredBy_of_decodeClass0 hc h
  case h_9 hc => exact restoredBy_of_decodeClass8 hc h
  case h_15 hc => exact restoredBy_of_decodeClassE hc h
  case h_16 =>
    exact restoredBy_of_decodeClassF (fieldClass_eq_F fun c hc => by interval_cases c <;> assumption) h
  all_goals cases h
  case h_2 hc => exact .of_encode (addressFits_fieldNnn w) (wordA_fields hc)
  case h_3 hc => exact .of_encode (addressFits_fieldNnn w) (wordA_fields hc)
  case h_4 hc => exact .of_encode rfl (wordXI_fields hc rfl)
  case h_5 hc => exact .of_encode rfl (wordXI_fields hc rfl)
  case h_6 hc => exact ⟨rfl, wordXY_fields_but_N hc⟩
  case h_7 hc => exact .of_encode rfl (wordXI_fields hc rfl)
  case h_8 hc => exact .of_encode rfl (wordXI_fields hc rfl)
  case h_10 hc => exact ⟨rfl, wordXY_fields_but_N hc⟩
  case h_11 hc => exact .of_encode (addressFits_fieldNnn w) (wordA_fields hc)
  case h_12 hc => exact .of_encode (addressFits_fieldNnn w) (wordA_fields hc)
  case h_13 hc => exact .of_encode rfl (wordXI_fields hc rfl)
  case h_14 hc => exact .of_encode (rowCountFits_fieldN w) (wordXY_fields hc rfl)

end Restores

/-- Settles O2: by the arms of the decoder, each of which tests and keeps the fields that the encoder puts together. -/
theorem encodeOfDecodedWordRestoresAllButIgnoredBits : Obligations.EncodeOfDecodedWordRestoresAllButIgnoredBits :=
  fun _ _ => restoredBy_of_decodeWord

/-! The words of no row (R54, R57). -/

/-- No two rows of the opcode map are alike on the bits that both masks test. -/
theorem opcodeRows_differ : opcodeRows.Pairwise fun a b => a.1 &&& b.2 ≠ b.1 &&& a.2 := by decide

theorem opcodeRows_disjoint (w : Word) : opcodeRows.Pairwise fun a b => ¬(w &&& a.2 = a.1 ∧ w &&& b.2 = b.1) := by
  refine opcodeRows_differ.imp fun {a b} hne => ?_
  rintro ⟨ha, hb⟩
  apply hne
  rw [← ha, ← hb, BitVec.and_assoc, BitVec.and_assoc, BitVec.and_comm a.2]

/-- Every row of the opcode map decodes to an instruction (R55). -/
theorem opcodeRows_decode : ∀ row ∈ opcodeRows, ∃ f, RowDecodes row.1 row.2 f := by
  simp only [opcodeRows, List.cons_append, List.nil_append, List.forall_mem_cons]
  exact ⟨⟨_, .cls⟩, ⟨_, .ret⟩, ⟨_, .jp⟩, ⟨_, .call⟩, ⟨_, .seVxNn⟩, ⟨_, .sneVxNn⟩, ⟨_, .seVxVy⟩, ⟨_, .ldVxNn⟩,
    ⟨_, .addVxNn⟩, ⟨_, .ldVxVy⟩, ⟨_, .orVxVy⟩, ⟨_, .andVxVy⟩, ⟨_, .xorVxVy⟩, ⟨_, .addVxVy⟩, ⟨_, .subVxVy⟩,
    ⟨_, .shrVxVy⟩, ⟨_, .subnVxVy⟩, ⟨_, .shlVxVy⟩, ⟨_, .sneVxVy⟩, ⟨_, .ldINnn⟩, ⟨_, .jpVfNnn⟩, ⟨_, .rndVxNn⟩,
    ⟨_, .drwVxVyN⟩, ⟨_, .skpVx⟩, ⟨_, .sknpVx⟩, ⟨_, .ldVxDt⟩, ⟨_, .ldVxK⟩, ⟨_, .ldDtVx⟩, ⟨_, .ldStVx⟩, ⟨_, .addIVx⟩,
    ⟨_, .ldFVx⟩, ⟨_, .ldBVx⟩, ⟨_, .ldMemVx⟩, ⟨_, .ldVxMem⟩, List.forall_mem_nil _⟩

theorem invalid_iff_no_row (w : Word) :
    (∃ r, decodeWord w = .invalid r) ↔ ∀ row ∈ opcodeRows, w &&& row.2 ≠ row.1 := by
  refine ⟨?_, decodeWord_of_no_row⟩
  rintro ⟨r, hr⟩ row hrow hw
  obtain ⟨f, hf⟩ := opcodeRows_decode row hrow
  rw [hf w hw] at hr
  cases hr

/-! The four groups, one per class that has invalid words. -/

section Groups

variable {w : Word}

theorem invalid_decodeClass0_iff :
    (∃ r, decodeClass0 w = .invalid r) ↔ fieldN w ≠ 0x0 ∧ fieldN w ≠ 0xE := by
  unfold decodeClass0
  split <;> simp_all

theorem invalid_decodeClass8_iff :
    (∃ r, decodeClass8 w = .invalid r) ↔ 0x8 ≤ fieldN w ∧ fieldN w ≠ 0xE := by
  unfold decodeClass8
  split <;> simp_all
  omega

theorem invalid_decodeClassE_iff :
    (∃ r, decodeClassE w = .invalid r) ↔ fieldNn w ≠ 0x9E ∧ fieldNn w ≠ 0xA1 := by
  unfold decodeClassE
  simp only [ne_eq, BitVec.toNat_eq]
  split <;> simp_all

theorem invalid_decodeClassF_iff :
    (∃ r, decodeClassF w = .invalid r) ↔
      fieldNn w ∉ [0x07, 0x0A, 0x15, 0x18, 0x1E, 0x29, 0x33, 0x55, 0x65] := by
  unfold decodeClassF
  simp only [List.mem_cons, List.not_mem_nil, or_false, BitVec.toNat_eq]
  split <;> simp_all

theorem invalid_iff_groups :
    (∃ r, decodeWord w = .invalid r) ↔
      (fieldClass w = 0x0 ∧ fieldN w ≠ 0x0 ∧ fieldN w ≠ 0xE) ∨
      (fieldClass w = 0x8 ∧ 0x8 ≤ fieldN w ∧ fieldN w ≠ 0xE) ∨
      (fieldClass w = 0xE ∧ fieldNn w ≠ 0x9E ∧ fieldNn w ≠ 0xA1) ∨
      (fieldClass w = 0xF ∧ fieldNn w ∉ [0x07, 0x0A, 0x15, 0x18, 0x1E, 0x29, 0x33, 0x55, 0x65]) := by
  rw [← invalid_decodeClass0_iff, ← invalid_decodeClass8_iff, ← invalid_decodeClassE_iff, ← invalid_decodeClassF_iff]
  unfold decodeWord
  split
  case h_16 =>
    have hc : fieldClass w = 0xF := fieldClass_eq_F fun c hc => by interval_cases c <;> assumption
    simp [hc]
  all_goals
    next hc => simp [hc]

end Groups

/-- Settles O4: the rows differ on bits both test, and the decoder's arms answer the rows and reject the four groups. -/
theorem invalidWordsAreExactlyThoseOfNoRow : Obligations.InvalidWordsAreExactlyThoseOfNoRow :=
  fun w => ⟨opcodeRows_disjoint w, invalid_iff_no_row w, invalid_iff_groups⟩

/-! The words shown. -/

/-- Settles O5: eight words, each run through the decoder. -/
theorem wordsShownByTheSourceDecodeRight : Obligations.WordsShownByTheSourceDecodeRight := by
  unfold Obligations.WordsShownByTheSourceDecodeRight
  decide

end Machine
end Sys2Proof
end

section
/-! PROOFS. What each instruction answers, one equation per outcome, and the invariant that every step keeps (log 6). -/

namespace Sys2Proof.Machine

/-! The instructions with more than one outcome. -/

section Outcomes

variable {s : State}

theorem exec_call_of_full (nnn : Nat) (h : s.sp.val = 64) :
    exec (.call nnn) s = .next (s.raise .stackOverflow) := if_pos h

theorem exec_call_of_room (nnn : Nat) (h : s.sp.val ≠ 64) :
    exec (.call nnn) s = .next ((s.push s.pc).jump (addressOperand nnn)) := if_neg h

theorem exec_ret_of_empty (h : s.sp.val = 0) : exec .ret s = .next (s.raise .stackUnderflow) := if_pos h

theorem exec_ret_of_nonempty (h : s.sp.val ≠ 0) : exec .ret s = .next (s.pop.jump (s.topEntry + 2)) := if_neg h

theorem exec_ldVxK (x : Reg) (s : State) : exec (.ldVxK x) s = execLdVxK x s := rfl

/-- No key is held, or one is held but no event is there. -/
theorem exec_ldVxK_of_waits (x : Reg) (h : Waits s) : exec (.ldVxK x) s = .next s := by
  rw [exec_ldVxK, execLdVxK]
  obtain hheld | hevent := h
  · rw [if_pos hheld]
  · rw [hevent]
    exact congrArg _ (ite_id s)

theorem exec_ldVxK_of_event (x : Reg) {key : Key} (hheld : s.inputs.keyHeld ≠ 0)
    (hevent : s.inputs.keyEvent = some key) :
    exec (.ldVxK x) s = .next (s.setReg x (BitVec.ofNat 8 key.val)).takeKeyEvent.advance := by
  rw [exec_ldVxK, execLdVxK, if_neg hheld, hevent]

/-- What LD Vx, K does not wait for is there: a held key and an event. -/
theorem not_waits_iff : ¬Waits s ↔ s.inputs.keyHeld ≠ 0 ∧ ∃ key, s.inputs.keyEvent = some key := by
  rw [not_or, ← ne_eq, ← ne_eq, Option.ne_none_iff_exists']

variable {t : State}

theorem exec_call_cases {nnn : Nat} (h : exec (.call nnn) s = .next t) :
    t = s.raise .stackOverflow ∨ t = (s.push s.pc).jump (addressOperand nnn) := by
  by_cases hsp : s.sp.val = 64
  · rw [exec_call_of_full nnn hsp] at h
    exact .inl (Host.Outcome.next.inj h).symm
  · rw [exec_call_of_room nnn hsp] at h
    exact .inr (Host.Outcome.next.inj h).symm

theorem exec_ret_cases (h : exec .ret s = .next t) :
    t = s.raise .stackUnderflow ∨ t = s.pop.jump (s.topEntry + 2) := by
  by_cases hsp : s.sp.val = 0
  · rw [exec_ret_of_empty hsp] at h
    exact .inl (Host.Outcome.next.inj h).symm
  · rw [exec_ret_of_nonempty hsp] at h
    exact .inr (Host.Outcome.next.inj h).symm

theorem exec_ldVxK_cases {x : Reg} (h : exec (.ldVxK x) s = .next t) :
    t = s ∨ ∃ b, t = (s.setReg x b).takeKeyEvent.advance := by
  by_cases hw : Waits s
  · rw [exec_ldVxK_of_waits x hw] at h
    exact .inl (Host.Outcome.next.inj h).symm
  · obtain ⟨hheld, key, hevent⟩ := not_waits_iff.mp hw
    rw [exec_ldVxK_of_event x hheld hevent] at h
    exact .inr ⟨_, (Host.Outcome.next.inj h).symm⟩

end Outcomes

theorem exec_ldMemVx (x : Reg) (s : State) :
    exec (.ldMemVx x) s = .next ((storeRegs s (x.val + 1)).setIndex (s.indexAfter x)).advance := rfl

/-! The invariant. Two instructions store to memory, and each store keeps the form; all others leave memory alone. -/

theorem storeDigits_inv {s : State} (hs : Inv s) (vx : Byte) : Inv (storeDigits s vx) :=
  ((hs.memWrite _ _).memWrite _ _).memWrite _ _

theorem storeRegs_inv {s : State} (hs : Inv s) (n : Nat) : Inv (storeRegs s n) :=
  foldl_keeps (fun _ _ ht => ht.memWrite _ _) hs _

theorem exec_keeps_inv {i : Instr} {s t : State} (hs : Inv s) (h : exec i s = .next t) : Inv t := by
  cases i
  case ldBVx x =>
    obtain rfl := Host.Outcome.next.inj h
    exact storeDigits_inv hs (s.reg x)
  case ldMemVx x =>
    obtain rfl := Host.Outcome.next.inj h
    exact storeRegs_inv hs (x.val + 1)
  case ldVxMem x =>
    obtain rfl := Host.Outcome.next.inj h
    exact hs.of_mem (loadRegs_mem s _) (loadRegs_cfg s _)
  case drwVxVyN x y n =>
    obtain rfl := Host.Outcome.next.inj h
    exact hs.of_mem (afterDraw_mem s x y n) (afterDraw_cfg s x y n)
  case call nnn => obtain rfl | rfl := exec_call_cases h <;> exact hs
  case ret => obtain rfl | rfl := exec_ret_cases h <;> exact hs
  case ldVxK x => obtain rfl | ⟨b, rfl⟩ := exec_ldVxK_cases h <;> exact hs
  all_goals
    obtain rfl := Host.Outcome.next.inj h
    exact hs

theorem State.fetch_begin_inv {s : State} (hs : Inv s) : Inv s.begin.fetch.2 := by
  rw [State.fetch_state]
  exact hs

/-- Settles O19: what comes before the instruction leaves memory alone, and the instruction keeps its form. -/
theorem stepKeepsMemoryCanonical : Obligations.StepKeepsMemoryCanonical := by
  intro s t hs h
  have hfetched := State.fetch_begin_inv hs
  obtain ⟨i, u, -, hu, rfl⟩ | ⟨r, -, rfl⟩ := step_cases h
  · exact (exec_keeps_inv hfetched hu).of_mem u.endTurn_mem u.endTurn_cfg
  · exact hfetched

end Sys2Proof.Machine
end

section
/-! PROOFS. Control transfer (41_control_transfer.md): the offset jump, CALL and RET. -/

namespace Sys2Proof.Machine

/-- A part that reads as before need not be named. -/
theorem KeepsAllBut.restored {s t : State} {p : Part} {changed : List Part} (h : KeepsAllBut (p :: changed) s t)
    (hp : p.Same s t) : KeepsAllBut changed s t := by
  refine ⟨fun q hq => ?_, h.2⟩
  by_cases hqp : q = p
  · exact hqp ▸ hp
  · exact h.1 q (List.not_mem_cons_of_ne_of_not_mem hqp hq)

/-! The offset jump. -/

theorem exec_jpVfNnn (nnn : Nat) (s : State) : exec (.jpVfNnn nnn) s = .next (s.jump (s.offsetTarget nnn)) := rfl

theorem topNibble_eq {nnn : Nat} {x : Reg} (h : x.val = nnn / 256) : topNibble nnn = x := by
  apply Fin.ext
  rw [topNibble, Fin.val_ofNat, ← h, Nat.mod_eq_of_lt x.isLt]

theorem State.jumpOffset_of_vF {s : State} (h : s.cfg.jpOffsetSrc = .vF) (nnn : Nat) :
    s.jumpOffset nnn = s.reg regF := by
  simp only [State.jumpOffset, h]

theorem State.jumpOffset_of_vX {s : State} (h : s.cfg.jpOffsetSrc = .vX) {nnn : Nat} {x : Reg}
    (hx : x.val = nnn / 256) : s.jumpOffset nnn = s.reg x := by
  simp only [State.jumpOffset, h, topNibble_eq hx]

/-- Settles O27: the row from the opcode map, and one jump to the sum, by the configured register. -/
theorem offsetJumpAddsTheConfiguredRegister : Obligations.OffsetJumpAddsTheConfiguredRegister := by
  refine ⟨RowDecodes.jpVfNnn, fun nnn s hnnn => ⟨_, exec_jpVfNnn nnn s, ?_, fun hsrc => ?_, fun hsrc x hx => ?_⟩⟩
  · exact (KeepsAllBut.refl [] s).jump _
  · rw [State.jump_pc, s.offsetTarget_toNat hnnn, State.jumpOffset_of_vF hsrc]
  · rw [State.jump_pc, s.offsetTarget_toNat hnnn, State.jumpOffset_of_vX hsrc hx]

/-! CALL and RET. -/

theorem State.stackEntry_jump (s : State) (a : Word) (k : Nat) : (s.jump a).stackEntry k = s.stackEntry k :=
  State.stackEntry_of_stack (s.jump_stack a) k

theorem State.stackEntry_pop (s : State) (k : Nat) : s.pop.stackEntry k = s.stackEntry k :=
  State.stackEntry_of_stack s.pop_stack k

/-- A push changes one entry and `sp`. -/
theorem State.push_frame (s : State) (a : Word) (h : s.sp.val < 64) :
    KeepsAllBut [.sp, .entry s.sp.val] s (s.push a) := by
  apply KeepsAllBut.of_fields
  case hsp => exact fun hp => absurd (by simp) hp
  case he =>
    intro k hk
    have hne : k ≠ s.sp.val := fun hks => hk (by simp [hks])
    rw [s.stackEntry_push a h, if_neg hne]
  case hr => exact fun r _ => State.reg_of_v rfl r
  case hb => exact fun b _ => State.byteAt_of_mem rfl rfl b
  all_goals simp

/-- A pop changes `sp` alone; the entry keeps its value (10_state.md R14). -/
theorem State.pop_frame (s : State) : KeepsAllBut [.sp] s s.pop := by
  apply KeepsAllBut.of_fields
  case hsp => exact fun hp => absurd (List.mem_singleton_self _) hp
  case he => exact fun k _ => s.stackEntry_pop k
  case hr => exact fun r _ => State.reg_of_v rfl r
  case hb => exact fun b _ => State.byteAt_of_mem rfl rfl b
  all_goals simp

/-- Settles O28: the row from the opcode map, and a push followed by a jump. -/
theorem callPushesItsOwnAddress : Obligations.CallPushesItsOwnAddress := by
  refine ⟨RowDecodes.call, fun nnn s hnnn hsp => ⟨_, exec_call_of_room nnn hsp.ne, ?_, ?_, ?_, fun k hk => ?_, ?_⟩⟩
  · rw [State.stackEntry_jump, s.stackEntry_push _ hsp, if_pos rfl]
  · rw [State.jump_sp, s.push_sp_val _ hsp]
  · rw [State.jump_pc, addressOperand_toNat hnnn]
  · rw [State.stackEntry_jump, s.stackEntry_push _ hsp, if_neg hk]
  · exact ((s.push_frame s.pc hsp).jump _).mono (by simp)

/-- Settles O29: the row from the opcode map, and a pop followed by a jump past the popped entry. -/
theorem returnGoesPastTheCall : Obligations.ReturnGoesPastTheCall := by
  refine ⟨RowDecodes.ret, fun s hsp => ⟨_, exec_ret_of_nonempty hsp.ne', ?_, ?_, fun k => ?_, ?_⟩⟩
  · rw [State.jump_sp, State.pop_sp_val]
    omega
  · rw [State.jump_pc, State.jump_sp, State.pop_sp_val, State.topEntry, BitVec.toNat_add]
    rfl
  · rw [State.stackEntry_jump, State.stackEntry_pop]
  · exact s.pop_frame.jump _

/-- Settles O30: the RET pops the entry the CALL pushed, which restores `sp`; the two frames name the rest. -/
theorem callThenReturnRoundTrip : Obligations.CallThenReturnRoundTrip := by
  intro nnn s hsp
  let t := (s.push s.pc).jump (addressOperand nnn)
  have htsp : t.sp.val = s.sp.val + 1 := s.push_sp_val s.pc hsp
  have htop : t.topEntry = s.pc := by
    rw [State.topEntry, htsp, State.stackEntry_jump, s.stackEntry_push _ hsp, if_pos (by omega)]
  have husp : t.pop.sp = s.sp := Fin.ext (by rw [State.pop_sp_val, htsp]; omega)
  refine ⟨t, _, exec_call_of_room nnn hsp.ne, exec_ret_of_nonempty (by omega), ?_, husp, fun k hk => ?_, ?_⟩
  · rw [State.jump_pc, htop, BitVec.toNat_add]
    rfl
  · rw [State.stackEntry_jump, State.stackEntry_pop, State.stackEntry_jump, s.stackEntry_push _ hsp, if_neg hk.ne]
  · have hcall : KeepsAllBut [.sp, .pc, .entry s.sp.val] s t := ((s.push_frame s.pc hsp).jump _).mono (by simp)
    have hret : KeepsAllBut [.sp, .pc, .entry s.sp.val] t (t.pop.jump (t.topEntry + 2)) :=
      (t.pop_frame.jump _).mono (by simp)
    exact (hcall.trans hret).restored husp

end Sys2Proof.Machine
end

section
/-! PROOFS. The key skips (47_input_timers_random.md R140, R141). -/

namespace Sys2Proof.Machine

theorem exec_skpVx (x : Reg) (s : State) : exec (.skpVx x) s = .next (s.skipIf (s.keyPressed (s.reg x))) := rfl

theorem exec_sknpVx (x : Reg) (s : State) : exec (.sknpVx x) s = .next (s.skipIf (!s.keyPressed (s.reg x))) := rfl

theorem State.not_keyPressed_iff (s : State) (vx : Byte) : (!s.keyPressed vx) = true ↔ ¬Holds s vx := by
  rw [Bool.not_eq_true', ← Bool.not_eq_true, s.keyPressed_iff]

/-- A value of 16 or more names no key (decision D12, log 19). -/
theorem not_holds_of_le {s : State} {vx : Byte} (h : 16 ≤ vx.toNat) : ¬Holds s vx := by
  rintro ⟨k, hk, -⟩
  have := k.isLt
  omega

/-- Settles O33: the two rows from the opcode map, and the two skips by whether the register names a held key. -/
theorem keySkipsTestTheHeldKey : Obligations.KeySkipsTestTheHeldKey := by
  refine ⟨RowDecodes.skpVx, RowDecodes.sknpVx, fun x s => ?_⟩
  obtain ⟨t, ht, htframe, htpc⟩ := skips_when (exec_skpVx x s) (s.keyPressed_iff (s.reg x))
  obtain ⟨u, hu, huframe, hupc⟩ := skips_when (exec_sknpVx x s) (s.not_keyPressed_iff (s.reg x))
  have hnot (hheld : ¬Holds s (s.reg x)) :
      t.pc.toNat = (s.pc.toNat + 2) % 65536 ∧ u.pc.toNat = (s.pc.toNat + 4) % 65536 := by
    rw [htpc, hupc, if_neg hheld, if_pos hheld]
    exact ⟨rfl, rfl⟩
  refine ⟨t, u, ht, hu, htframe, huframe, fun hheld => ?_, hnot, fun hle => hnot (not_holds_of_le hle)⟩
  rw [htpc, hupc, if_pos hheld, if_neg (not_not_intro hheld)]
  exact ⟨rfl, rfl⟩

end Sys2Proof.Machine
end

section
/-! PROOFS. One register, index or timer write and the advance: ADD Vx, NN, the logic, ADD I, Vx, LD F, Vx and the timer
moves; and the flag writers. -/

namespace Sys2Proof.Machine

/-- An advance after work that leaves `pc` alone goes to the next word (40_step_cycle.md R73). -/
theorem advance_pc_next {s t : State} (h : t.pc = s.pc) : t.advance.pc.toNat = nextWordAddress s := by
  rw [State.advance_pc_toNat, h, nextWordAddress]

/-- What an instruction does that writes one register and advances, with the next word's address. -/
theorem writes_register_next {r : Result} {s : State} {x : Reg} {b : Byte} (hr : r = .next (s.setReg x b).advance) :
    ∃ t, r = .next t ∧ t.reg x = b ∧ t.pc.toNat = nextWordAddress s ∧ KeepsAllBut [.pc, .reg x] s t := by
  obtain ⟨t, ht, hreg, -, hframe⟩ := writes_register hr
  obtain rfl := Host.Outcome.next.inj (hr.symm.trans ht)
  exact ⟨_, ht, hreg, advance_pc_next (s.setReg_pc x b), hframe⟩

theorem exec_addVxNn (x : Reg) (nn : Byte) (s : State) :
    exec (.addVxNn x nn) s = .next (s.setReg x (s.reg x + nn)).advance := rfl

/-- Settles O35: the row from the opcode map, and one register write of the sum. -/
theorem addImmediateWrapsWithoutFlag : Obligations.AddImmediateWrapsWithoutFlag := by
  refine ⟨RowDecodes.addVxNn, fun x nn s => ?_⟩
  obtain ⟨t, ht, hreg, hpc, hframe⟩ := writes_register_next (exec_addVxNn x nn s)
  exact ⟨t, ht, hreg ▸ BitVec.toNat_add _ _, hpc, hframe⟩

/-! The logic. -/

theorem exec_orVxVy (x y : Reg) (s : State) :
    exec (.orVxVy x y) s = .next (s.setReg x (s.reg x ||| s.reg y)).advance := rfl

theorem exec_andVxVy (x y : Reg) (s : State) :
    exec (.andVxVy x y) s = .next (s.setReg x (s.reg x &&& s.reg y)).advance := rfl

theorem exec_xorVxVy (x y : Reg) (s : State) :
    exec (.xorVxVy x y) s = .next (s.setReg x (s.reg x ^^^ s.reg y)).advance := rfl

/-- Settles O37: the three rows from the opcode map, and one register write of the bitwise result. -/
theorem logicIsBitwiseWithoutFlag : Obligations.LogicIsBitwiseWithoutFlag := by
  refine ⟨RowDecodes.orVxVy, RowDecodes.andVxVy, RowDecodes.xorVxVy, fun x y s => ⟨?_, ?_, ?_⟩⟩
  · obtain ⟨t, ht, hreg, hpc, hframe⟩ := writes_register_next (exec_orVxVy x y s)
    exact ⟨t, ht, hpc, hframe, fun k => by rw [hreg, BitVec.getLsbD_or]⟩
  · obtain ⟨t, ht, hreg, hpc, hframe⟩ := writes_register_next (exec_andVxVy x y s)
    exact ⟨t, ht, hpc, hframe, fun k => by rw [hreg, BitVec.getLsbD_and]⟩
  · obtain ⟨t, ht, hreg, hpc, hframe⟩ := writes_register_next (exec_xorVxVy x y s)
    exact ⟨t, ht, hpc, hframe, fun k => by rw [hreg, BitVec.getLsbD_xor, Bool.bne_eq_xor]⟩

/-! The flag writers. -/

theorem flagByte_zero_or_one (b : Bool) : flagByte b = 0 ∨ flagByte b = 1 := (ite_eq_or_eq _ _ _).symm

theorem leaves_flag {r : Result} {s : State} {x : Reg} {b : Byte} {c : Bool}
    (hr : r = .next (s.setRegFlag x b c).advance) : ∃ t, r = .next t ∧ (t.reg regF = 0 ∨ t.reg regF = 1) := by
  refine ⟨_, hr, ?_⟩
  rw [State.reg_advance, State.reg_setRegFlag_flag]
  exact flagByte_zero_or_one c

/-- Settles O40: five instructions write a flag last, and the sprite draw sets it to 0 or 1. -/
theorem flagIsExactlyZeroOrOne : Obligations.FlagIsExactlyZeroOrOne := by
  intro x y n s i hi
  simp only [List.mem_cons, List.not_mem_nil, or_false] at hi
  obtain rfl | rfl | rfl | rfl | rfl | rfl := hi
  · exact leaves_flag (exec_addVxVy x y s)
  · exact leaves_flag (exec_subVxVy x y s)
  · exact leaves_flag (exec_shrVxVy x y s)
  · exact leaves_flag (exec_subnVxVy x y s)
  · exact leaves_flag (exec_shlVxVy x y s)
  · exact ⟨_, exec_drwVxVyN x y n s, regF_afterDraw_zero_or_one s x y n⟩

/-! The index register. -/

/-- What an instruction does that writes the index register and advances. -/
theorem writes_index {r : Result} {s : State} {a : Word} (hr : r = .next (s.setIndex a).advance) :
    ∃ t, r = .next t ∧ t.i = a ∧ t.pc.toNat = nextWordAddress s ∧ KeepsAllBut [.pc, .index] s t :=
  ⟨_, hr, rfl, advance_pc_next (s.setIndex_pc a), (s.setIndex_frame a).advance⟩

theorem exec_addIVx (x : Reg) (s : State) : exec (.addIVx x) s = .next (s.setIndex (s.indexPlus x)).advance := rfl

theorem exec_ldFVx (x : Reg) (s : State) : exec (.ldFVx x) s = .next (s.setIndex (s.glyphAddress x)).advance := rfl

/-- Settles O42: the two rows from the opcode map, and one index write of the sum or of the glyph's address. -/
theorem indexAddAndGlyphAddress : Obligations.IndexAddAndGlyphAddress := by
  refine ⟨RowDecodes.addIVx, RowDecodes.ldFVx, fun x s => ⟨?_, ?_⟩⟩
  · obtain ⟨t, ht, hi, hpc, hframe⟩ := writes_index (exec_addIVx x s)
    exact ⟨t, ht, hi ▸ s.indexPlus_toNat x, hpc, hframe⟩
  · obtain ⟨t, ht, hi, hpc, hframe⟩ := writes_index (exec_ldFVx x s)
    exact ⟨t, ht, hi ▸ s.glyphAddress_toNat x, hpc, hframe⟩

/-! The timers (47_input_timers_random.md section 2). -/

/-- A frame of an update of the timers or the outputs, which leaves every register, entry and byte. -/
theorem KeepsAllBut.of_timers_and_outputs {s : State} (changed : List Part) (dt st : Byte) (out : Outputs)
    (hd : .delay ∉ changed → dt = s.dt) (hs : .sound ∉ changed → st = s.st)
    (hre : .redraw ∉ changed → out.redraw = s.out.redraw)
    (hfl : ∀ c, .flag c ∉ changed → out.diag.flag c = s.out.diag.flag c)
    (hk : .keyEventTaken ∉ changed → out.keyEventTaken = s.out.keyEventTaken)
    (hg : .rngTaken ∉ changed → out.rngTaken = s.out.rngTaken) :
    KeepsAllBut changed s { s with dt := dt, st := st, out := out } :=
  .of_fields (fun r _ => State.reg_of_v rfl r) (fun _ => rfl) (fun _ => rfl)
    (fun k _ => State.stackEntry_of_stack rfl k) (fun _ => rfl) hd hs (fun _ => rfl)
    (fun a _ => State.byteAt_of_mem rfl rfl a) hre hfl hk hg rfl rfl rfl

theorem State.setDelay_frame (s : State) (b : Byte) : KeepsAllBut [.delay] s (s.setDelay b) :=
  .of_timers_and_outputs [.delay] b s.st s.out (by simp) (by simp) (by simp) (by simp) (by simp) (by simp)

theorem State.setSound_frame (s : State) (b : Byte) : KeepsAllBut [.sound] s (s.setSound b) :=
  .of_timers_and_outputs [.sound] s.dt b s.out (by simp) (by simp) (by simp) (by simp) (by simp) (by simp)

theorem exec_ldVxDt (x : Reg) (s : State) : exec (.ldVxDt x) s = .next (s.setReg x s.dt).advance := rfl

theorem exec_ldDtVx (x : Reg) (s : State) : exec (.ldDtVx x) s = .next (s.setDelay (s.reg x)).advance := rfl

theorem exec_ldStVx (x : Reg) (s : State) : exec (.ldStVx x) s = .next (s.setSound (s.reg x)).advance := rfl

/-- Settles O51: the three rows from the opcode map, and one write of a register or a timer. -/
theorem timerMovesReadAndWriteTheTimers : Obligations.TimerMovesReadAndWriteTheTimers := by
  refine ⟨RowDecodes.ldVxDt, RowDecodes.ldDtVx, RowDecodes.ldStVx, fun x s => ⟨?_, ?_, ?_⟩⟩
  · exact writes_register_next (exec_ldVxDt x s)
  · exact ⟨_, exec_ldDtVx x s, rfl, advance_pc_next (s.setDelay_pc _), (s.setDelay_frame _).advance⟩
  · exact ⟨_, exec_ldStVx x s, rfl, advance_pc_next (s.setSound_pc _), (s.setSound_frame _).advance⟩

end Sys2Proof.Machine
end

section
/-! PROOFS. The register store (45_index_memory.md R124) and its round trip with the register load (R126). -/

namespace Sys2Proof.Machine

theorem State.byteAt_setIndex (s : State) (a : Word) (raw : Nat) : (s.setIndex a).byteAt raw = s.byteAt raw :=
  State.byteAt_of_mem (s.setIndex_mem a) (s.setIndex_cfg a) raw

theorem storeRegs_frame (s : State) (m : Nat) {n : Nat} (hn : n ≤ m) :
    KeepsAllBut (.flag .addrWrap :: bytesAtIndex s m) s (storeRegs s n) := by
  induction n with
  | zero => exact .refl _ s
  | succ n ih =>
    have hraw : (storeRegs s n).indexRaw n = s.indexRaw n := by rw [State.indexRaw, storeRegs_i, State.indexRaw]
    have hbyte : .byte (effectiveAddress (s.indexRaw n)) ∈ bytesAtIndex s m := mem_bytesAtIndex.mpr ⟨n, hn, rfl⟩
    rw [storeRegs_succ, State.storeReg, hraw]
    exact (ih (by omega)).trans ((State.memWrite_frame _ _ _).mono (by simpa using hbyte))

/-- The byte at `I + k` after the turns 0 to X of the store, k at most X. -/
theorem byteAt_storeRegs_upTo (s : State) {k x : Reg} (hk : k ≤ x) :
    (storeRegs s (x.val + 1)).byteAt (s.indexRaw k.val) = s.reg k := by
  rw [byteAt_storeRegs s (by omega) (Nat.lt_succ_of_le hk)]
  exact congrArg s.reg (Fin.ext (Nat.mod_eq_of_lt k.isLt))

/-- Settles O44: the row from the opcode map, and the bytes, frame and outputs of the loop. -/
theorem registerStoreWritesRangeAndMovesIndex : Obligations.RegisterStoreWritesRangeAndMovesIndex := by
  refine ⟨RowDecodes.ldMemVx, fun x s => ⟨_, exec_ldMemVx x s, ?_, fun k hk => ?_, fun a ha => ?_, ?_, ?_, ?_⟩⟩
  · exact advance_pc_next (storeRegs_pc s _)
  · rw [State.byteAt_advance, State.byteAt_setIndex, byteAt_storeRegs_upTo s hk]
  · rw [State.byteAt_advance, State.byteAt_setIndex, byteAt_storeRegs_outside s _ a]
    exact fun k hk => ha ⟨k, by omega⟩ (Nat.le_of_lt_succ hk)
  · rw [State.advance_i, State.setIndex_i, State.indexAfter_toNat]
  · exact ((storeRegs_frame s _ le_rfl).setIndex _).advance
  · rw [State.advance_out, State.setIndex_out, storeRegs_out, wrapsBefore_last]

/-- Settles O46: with `I` back at the start, the load reads the addresses the store wrote, whatever the registers hold. -/
theorem storeThenLoadRestoresRegisters : Obligations.StoreThenLoadRestoresRegisters := by
  intro x s between
  refine ⟨_, _, exec_ldMemVx x s, exec_ldVxMem x _, fun k hk => ?_⟩
  rw [State.reg_advance, State.reg_setIndex, reg_loadRegs_upTo, if_pos hk]
  exact byteAt_storeRegs_upTo s hk

end Sys2Proof.Machine
end

section
/-! PROOFS. The sprite draw (46_display.md R131, R132): its frame and its outputs. -/

namespace Sys2Proof.Machine

/-! The frame of a draw: a pixel, a row of bits, the rows. -/

theorem State.togglePixel_frame (s : State) (row col : Nat) : KeepsAllBut [.screen] s (s.togglePixel row col) := by
  apply KeepsAllBut.of_fields
  case hf => exact fun h => absurd (List.mem_singleton_self _) h
  case hr => exact fun r _ => State.reg_of_v rfl r
  case he => exact fun k _ => State.stackEntry_of_stack rfl k
  case hb => exact fun a _ => State.byteAt_of_mem rfl rfl a
  all_goals simp

/-- A 0 bit changes nothing; a 1 bit toggles a pixel, after a write of the flag where the pixel is on. -/
theorem State.drawPixel_frame (s : State) (row col : Nat) (bit : Bool) :
    KeepsAllBut [.reg regF, .screen] s (s.drawPixel row col bit) := by
  have htoggle (t : State) : KeepsAllBut [.reg regF, .screen] t (t.togglePixel row col) :=
    (t.togglePixel_frame row col).mono (by simp)
  unfold State.drawPixel
  split
  · split
    · exact ((s.setReg_frame regF (flagByte true)).mono (by simp)).trans (htoggle _)
    · exact htoggle s
  · exact .refl _ s

theorem drawBits_frame (s : State) (row x0 : Nat) (b : Byte) (k : Nat) :
    KeepsAllBut [.reg regF, .screen] s (drawBits s row x0 b k) :=
  foldl_keeps (P := KeepsAllBut [.reg regF, .screen] s) (fun t _ ht => ht.trans (t.drawPixel_frame _ _ _)) (.refl _ s) _

theorem State.drawSpriteRow_frame (s : State) (x0 y0 r : Nat) :
    KeepsAllBut [.reg regF, .screen, .flag .addrWrap] s (s.drawSpriteRow x0 y0 r) :=
  ((s.noteAccess_frame _).mono (by simp)).trans ((drawBits_frame _ _ _ _ _).mono (by simp))

theorem drawRows_frame (s : State) (x0 y0 m : Nat) :
    KeepsAllBut [.reg regF, .screen, .flag .addrWrap] s (drawRows s x0 y0 m) :=
  foldl_keeps (P := KeepsAllBut [.reg regF, .screen, .flag .addrWrap] s)
    (fun t _ ht => ht.trans (t.drawSpriteRow_frame _ _ _)) (.refl _ s) _

theorem State.requestRedraw_frame (s : State) : KeepsAllBut [.redraw] s s.requestRedraw :=
  .of_timers_and_outputs [.redraw] s.dt s.st _ (by simp) (by simp) (by simp) (by simp) (by simp) (by simp)

theorem afterDraw_frame (s : State) (x y : Reg) (n : Nat) :
    KeepsAllBut [.pc, .reg regF, .screen, .redraw, .flag .addrWrap] s (afterDraw s x y n) := by
  have hflag : KeepsAllBut [.reg regF, .screen, .redraw, .flag .addrWrap] s (s.setReg regF (flagByte false)) :=
    (s.setReg_frame _ _).mono (by simp)
  have hrows := drawRows_frame (s.setReg regF (flagByte false)) (s.originColumn x) (s.originRow y)
    (rowsDrawn (s.originRow y) n)
  have hredraw := (drawRows (s.setReg regF (flagByte false)) (s.originColumn x) (s.originRow y)
    (rowsDrawn (s.originRow y) n)).requestRedraw_frame
  exact ((hflag.trans (hrows.mono (by simp))).trans (hredraw.mono (by simp))).advance

/-! The outputs of a draw. -/

theorem afterDraw_out (s : State) (x y : Reg) (n : Nat) : (afterDraw s x y n).out =
    { s.out with redraw := true, diag := { s.out.diag with
      addrWrap := s.out.diag.addrWrap || wrapsBefore s (rowsDrawn (s.originRow y) n) } } := by
  rw [afterDraw, State.advance_out, State.requestRedraw_out, drawRows_out, State.setReg_out]
  rfl

/-- Clipped rows are not read (decision D26, log 26). -/
theorem wrapsBefore_rowsDrawn_iff (s : State) (y : Reg) (n : Nat) :
    wrapsBefore s (rowsDrawn (s.originRow y) n) = true ↔
      ∃ r, r < n ∧ (s.reg y).toNat % 32 + r < 32 ∧ 4096 ≤ s.indexRaw r := by
  rw [wrapsBefore, decide_eq_true_iff, rowsDrawn, State.originRow]
  refine exists_congr fun r => ?_
  omega

theorem afterDraw_pc (s : State) (x y : Reg) (n : Nat) : (afterDraw s x y n).pc.toNat = nextWordAddress s :=
  advance_pc_next (drawRows_pc _ _ _ _)

/-- Settles O48: the row from the opcode map, and the pixels, the flag, the outputs and the frame of a draw. -/
theorem spriteDrawXorsExactlyTheDrawnBits : Obligations.SpriteDrawXorsExactlyTheDrawnBits := by
  refine ⟨RowDecodes.drwVxVyN, fun x y n s => ⟨_, exec_drwVxVyN x y n s, afterDraw_pc s x y n, pixel_afterDraw s x y n,
    regF_afterDraw_eq_one_iff, regF_afterDraw_zero_or_one s x y n, ?_, ?_, afterDraw_frame s x y n⟩⟩
  · rw [afterDraw_out, Bool.or_eq_true, wrapsBefore_rowsDrawn_iff]
  · rw [afterDraw_out]

end Sys2Proof.Machine
end

section
/-! PROOFS. The key wait (47_input_timers_random.md R142). -/

namespace Sys2Proof.Machine

theorem State.takeKeyEvent_frame (s : State) : KeepsAllBut [.keyEventTaken] s s.takeKeyEvent :=
  .of_timers_and_outputs [.keyEventTaken] s.dt s.st _ (by simp) (by simp) (by simp) (by simp) (by simp) (by simp)

/-- A register write and the taking of the event change that register and `key_event_taken`. -/
theorem State.setReg_takeKeyEvent_frame (s : State) (x : Reg) (b : Byte) :
    KeepsAllBut [.reg x, .keyEventTaken] s (s.setReg x b).takeKeyEvent :=
  ((s.setReg_frame x b).mono (by simp)).trans ((State.takeKeyEvent_frame _).mono (by simp))

/-- Settles O50: the row from the opcode map, and the two outcomes. -/
theorem keyWaitTakesAnEventOrChangesNothing : Obligations.KeyWaitTakesAnEventOrChangesNothing := by
  refine ⟨RowDecodes.ldVxK, fun x s => ⟨exec_ldVxK_of_waits x, fun key hheld hevent => ?_⟩⟩
  refine ⟨_, exec_ldVxK_of_event x hheld hevent, ?_, ?_, rfl, (s.setReg_takeKeyEvent_frame x _).advance⟩
  · rw [State.reg_advance, State.reg_of_v (State.takeKeyEvent_v _), State.reg_setReg_self, BitVec.toNat_ofNat]
    omega
  · exact advance_pc_next rfl

end Sys2Proof.Machine
end

section
/-! PROOFS. Every instruction at once: its write set (10_state.md R24), the final value of `pc` (40_step_cycle.md R73) and the
inputs it does not read (R80). -/

namespace Sys2Proof.Machine

/-! The write set. -/

/-- Every instruction answers a next state, with the frame of what it writes. -/
theorem exec_frame (i : Instr) (s : State) : ∃ t, exec i s = .next t ∧ KeepsAllBut (writeSet s i) s t := by
  have hjump (a : Word) : KeepsAllBut [.pc] s (s.jump a) := (KeepsAllBut.refl [] s).jump a
  cases i with
  | cls => exact ⟨_, exec_cls s, s.clearScreen_frame.advance⟩
  | ret =>
    rw [writeSet]
    by_cases hsp : s.sp.val = 0
    · rw [if_pos hsp]
      exact ⟨_, exec_ret_of_empty hsp, s.raise_frame _⟩
    · rw [if_neg hsp]
      exact ⟨_, exec_ret_of_nonempty hsp, s.pop_frame.jump _⟩
  | jp nnn => exact ⟨_, exec_jp nnn s, hjump _⟩
  | call nnn =>
    rw [writeSet]
    by_cases hsp : s.sp.val = 64
    · rw [if_pos hsp]
      exact ⟨_, exec_call_of_full nnn hsp, s.raise_frame _⟩
    · rw [if_neg hsp]
      exact ⟨_, exec_call_of_room nnn hsp, ((s.push_frame s.pc (by omega)).jump _).mono (by simp)⟩
  | seVxNn x nn => exact ⟨_, exec_seVxNn x nn s, s.skipIf_frame _⟩
  | sneVxNn x nn => exact ⟨_, exec_sneVxNn x nn s, s.skipIf_frame _⟩
  | seVxVy x y => exact ⟨_, exec_seVxVy x y s, s.skipIf_frame _⟩
  | ldVxNn x nn => exact ⟨_, exec_ldVxNn x nn s, (s.setReg_frame x _).advance⟩
  | addVxNn x nn => exact ⟨_, exec_addVxNn x nn s, (s.setReg_frame x _).advance⟩
  | ldVxVy x y => exact ⟨_, exec_ldVxVy x y s, (s.setReg_frame x _).advance⟩
  | orVxVy x y => exact ⟨_, exec_orVxVy x y s, (s.setReg_frame x _).advance⟩
  | andVxVy x y => exact ⟨_, exec_andVxVy x y s, (s.setReg_frame x _).advance⟩
  | xorVxVy x y => exact ⟨_, exec_xorVxVy x y s, (s.setReg_frame x _).advance⟩
  | addVxVy x y => exact ⟨_, exec_addVxVy x y s, (s.setRegFlag_frame x _ _).advance⟩
  | subVxVy x y => exact ⟨_, exec_subVxVy x y s, (s.setRegFlag_frame x _ _).advance⟩
  | shrVxVy x y => exact ⟨_, exec_shrVxVy x y s, (s.setRegFlag_frame x _ _).advance⟩
  | subnVxVy x y => exact ⟨_, exec_subnVxVy x y s, (s.setRegFlag_frame x _ _).advance⟩
  | shlVxVy x y => exact ⟨_, exec_shlVxVy x y s, (s.setRegFlag_frame x _ _).advance⟩
  | sneVxVy x y => exact ⟨_, exec_sneVxVy x y s, s.skipIf_frame _⟩
  | ldINnn nnn => exact ⟨_, exec_ldINnn nnn s, (s.setIndex_frame _).advance⟩
  | jpVfNnn nnn => exact ⟨_, exec_jpVfNnn nnn s, hjump _⟩
  | rndVxNn x nn => exact ⟨_, exec_rndVxNn x nn s, (s.setReg_takeRngByte_frame x _).advance⟩
  | drwVxVyN x y n => exact ⟨_, exec_drwVxVyN x y n s, afterDraw_frame s x y n⟩
  | skpVx x => exact ⟨_, exec_skpVx x s, s.skipIf_frame _⟩
  | sknpVx x => exact ⟨_, exec_sknpVx x s, s.skipIf_frame _⟩
  | ldVxDt x => exact ⟨_, exec_ldVxDt x s, (s.setReg_frame x _).advance⟩
  | ldVxK x =>
    rw [writeSet]
    by_cases hw : Waits s
    · rw [if_pos hw]
      exact ⟨s, exec_ldVxK_of_waits x hw, .refl [] s⟩
    · obtain ⟨hheld, key, hevent⟩ := not_waits_iff.mp hw
      rw [if_neg hw]
      exact ⟨_, exec_ldVxK_of_event x hheld hevent, (s.setReg_takeKeyEvent_frame x _).advance⟩
  | ldDtVx x => exact ⟨_, exec_ldDtVx x s, (s.setDelay_frame _).advance⟩
  | ldStVx x => exact ⟨_, exec_ldStVx x s, (s.setSound_frame _).advance⟩
  | addIVx x => exact ⟨_, exec_addIVx x s, (s.setIndex_frame _).advance⟩
  | ldFVx x => exact ⟨_, exec_ldFVx x s, (s.setIndex_frame _).advance⟩
  | ldBVx x => exact ⟨_, exec_ldBVx x s, (storeDigits_frame s _).advance⟩
  | ldMemVx x => exact ⟨_, exec_ldMemVx x s, ((storeRegs_frame s _ le_rfl).setIndex _).advance⟩
  | ldVxMem x => exact ⟨_, exec_ldVxMem x s, ((loadRegs_frame s x le_rfl).setIndex _).advance⟩

/-- Settles O16: the frame of every instruction. -/
theorem everyInstructionWritesOnlyItsWriteSet : Obligations.EveryInstructionWritesOnlyItsWriteSet := exec_frame

/-! The final value of `pc`. -/

/-- What an instruction does that ends in a skip whose test decides `P`. -/
theorem skips_to {r : Result} {s : State} {c : Bool} {P : Prop} [Decidable P] (hr : r = .next (s.skipIf c))
    (hc : c = true ↔ P) : ∃ t, r = .next t ∧ t.pc.toNat = if P then skipAddress s else nextWordAddress s := by
  obtain ⟨t, ht, -, hpc⟩ := skips_when hr hc
  exact ⟨t, ht, hpc⟩

/-- What an instruction does that leaves `pc` to the advance. -/
theorem advances_to_next {r : Result} {s t : State} (hr : r = .next t.advance) (hpc : t.pc = s.pc) :
    ∃ t, r = .next t ∧ t.pc.toNat = nextWordAddress s := ⟨_, hr, advance_pc_next hpc⟩

theorem exec_pc (i : Instr) (s : State) (h : i.wellFormed = true) :
    ∃ t, exec i s = .next t ∧ t.pc.toNat = finalPc s i := by
  cases i with
  | seVxNn x nn => exact skips_to (exec_seVxNn x nn s) beq_iff_eq
  | sneVxNn x nn => exact skips_to (exec_sneVxNn x nn s) bne_iff_ne
  | seVxVy x y => exact skips_to (exec_seVxVy x y s) beq_iff_eq
  | sneVxVy x y => exact skips_to (exec_sneVxVy x y s) bne_iff_ne
  | skpVx x => exact skips_to (exec_skpVx x s) (s.keyPressed_iff _)
  | sknpVx x => exact skips_to (exec_sknpVx x s) (s.not_keyPressed_iff _)
  | jp nnn => exact ⟨_, exec_jp nnn s, addressOperand_toNat (of_decide_eq_true h)⟩
  | jpVfNnn nnn =>
    exact ⟨_, exec_jpVfNnn nnn s, (s.offsetTarget_toNat (of_decide_eq_true h)).trans (Nat.add_comm _ _)⟩
  | call nnn =>
    rw [finalPc]
    by_cases hsp : s.sp.val = 64
    · rw [if_pos hsp]
      exact ⟨_, exec_call_of_full nnn hsp, rfl⟩
    · rw [if_neg hsp]
      exact ⟨_, exec_call_of_room nnn hsp, addressOperand_toNat (of_decide_eq_true h)⟩
  | ret =>
    rw [finalPc]
    by_cases hsp : s.sp.val = 0
    · rw [if_pos hsp]
      exact ⟨_, exec_ret_of_empty hsp, rfl⟩
    · rw [if_neg hsp]
      exact ⟨_, exec_ret_of_nonempty hsp, BitVec.toNat_add _ _⟩
  | ldVxK x =>
    rw [finalPc]
    by_cases hw : Waits s
    · rw [if_pos hw]
      exact ⟨s, exec_ldVxK_of_waits x hw, rfl⟩
    · obtain ⟨hheld, key, hevent⟩ := not_waits_iff.mp hw
      rw [if_neg hw]
      exact ⟨_, exec_ldVxK_of_event x hheld hevent, advance_pc_next rfl⟩
  | drwVxVyN x y n => exact ⟨_, exec_drwVxVyN x y n s, afterDraw_pc s x y n⟩
  | ldBVx x => exact advances_to_next (exec_ldBVx x s) (storeDigits_pc s _)
  | ldMemVx x => exact advances_to_next (exec_ldMemVx x s) (storeRegs_pc s _)
  | ldVxMem x => exact advances_to_next (exec_ldVxMem x s) (loadRegs_pc s _)
  | cls => exact advances_to_next (exec_cls s) rfl
  | ldVxNn x nn => exact advances_to_next (exec_ldVxNn x nn s) rfl
  | addVxNn x nn => exact advances_to_next (exec_addVxNn x nn s) rfl
  | ldVxVy x y => exact advances_to_next (exec_ldVxVy x y s) rfl
  | orVxVy x y => exact advances_to_next (exec_orVxVy x y s) rfl
  | andVxVy x y => exact advances_to_next (exec_andVxVy x y s) rfl
  | xorVxVy x y => exact advances_to_next (exec_xorVxVy x y s) rfl
  | addVxVy x y => exact advances_to_next (exec_addVxVy x y s) rfl
  | subVxVy x y => exact advances_to_next (exec_subVxVy x y s) rfl
  | shrVxVy x y => exact advances_to_next (exec_shrVxVy x y s) rfl
  | subnVxVy x y => exact advances_to_next (exec_subnVxVy x y s) rfl
  | shlVxVy x y => exact advances_to_next (exec_shlVxVy x y s) rfl
  | ldINnn nnn => exact advances_to_next (exec_ldINnn nnn s) rfl
  | rndVxNn x nn => exact advances_to_next (exec_rndVxNn x nn s) rfl
  | ldVxDt x => exact advances_to_next (exec_ldVxDt x s) rfl
  | ldDtVx x => exact advances_to_next (exec_ldDtVx x s) rfl
  | ldStVx x => exact advances_to_next (exec_ldStVx x s) rfl
  | addIVx x => exact advances_to_next (exec_addIVx x s) rfl
  | ldFVx x => exact advances_to_next (exec_ldFVx x s) rfl

/-- Settles O15: the final `pc` of every instruction. -/
theorem finalPcOfEveryInstruction : Obligations.FinalPcOfEveryInstruction := exec_pc

/-! The environment. The operations do not look at it, so the loops do not. -/

section Environment

variable (s : State) (script : List Turn) (turn : Nat)

theorem State.noteAccess_withEnvironment (a : Nat) :
    (s.withEnvironment script turn).noteAccess a = (s.noteAccess a).withEnvironment script turn := by
  unfold State.noteAccess
  split <;> rfl

theorem storeDigits_withEnvironment (vx : Byte) :
    storeDigits (s.withEnvironment script turn) vx = (storeDigits s vx).withEnvironment script turn := by
  have hwrite (t : State) (a : Nat) (b : Byte) :
      (t.withEnvironment script turn).memWrite a b = (t.memWrite a b).withEnvironment script turn :=
    (t.storeByte a b).noteAccess_withEnvironment script turn a
  simp only [storeDigits, hwrite]
  rfl

theorem storeRegs_withEnvironment (n : Nat) :
    storeRegs (s.withEnvironment script turn) n = (storeRegs s n).withEnvironment script turn :=
  List.foldl_hom (fun t : State => t.withEnvironment script turn)
    fun t k => (t.storeByte (t.indexRaw k) _).noteAccess_withEnvironment script turn _

theorem loadRegs_withEnvironment (n : Nat) :
    loadRegs (s.withEnvironment script turn) n = (loadRegs s n).withEnvironment script turn := by
  refine List.foldl_hom (fun t : State => t.withEnvironment script turn) fun t k => ?_
  exact congrArg (State.setReg · (Fin.ofNat 16 k) _) (t.noteAccess_withEnvironment script turn (t.indexRaw k))

theorem State.drawPixel_withEnvironment (row col : Nat) (bit : Bool) :
    (s.withEnvironment script turn).drawPixel row col bit = (s.drawPixel row col bit).withEnvironment script turn := by
  have hpixel : (s.withEnvironment script turn).pixel row col = s.pixel row col := State.pixel_of_fb rfl row col
  unfold State.drawPixel
  rw [hpixel]
  cases bit
  · rfl
  · cases s.pixel row col <;> rfl

theorem drawBits_withEnvironment (row x0 : Nat) (b : Byte) (k : Nat) :
    drawBits (s.withEnvironment script turn) row x0 b k = (drawBits s row x0 b k).withEnvironment script turn :=
  List.foldl_hom (fun t : State => t.withEnvironment script turn)
    fun t _ => t.drawPixel_withEnvironment script turn _ _ _

theorem drawRows_withEnvironment (x0 y0 m : Nat) :
    drawRows (s.withEnvironment script turn) x0 y0 m = (drawRows s x0 y0 m).withEnvironment script turn := by
  refine List.foldl_hom (fun t : State => t.withEnvironment script turn) fun t r => ?_
  rw [drawSpriteRow_eq, drawSpriteRow_eq, State.noteAccess_withEnvironment, drawBits_withEnvironment]
  rfl

theorem afterDraw_withEnvironment (x y : Reg) (n : Nat) :
    afterDraw (s.withEnvironment script turn) x y n = (afterDraw s x y n).withEnvironment script turn :=
  congrArg (fun t : State => t.requestRedraw.advance)
    (drawRows_withEnvironment (s.setReg regF (flagByte false)) script turn _ _ _)

end Environment

/-- What the instruction answers at `s` is the same under every environment, but for the environment. -/
def IgnoresEnvironment (i : Instr) (s : State) : Prop :=
  ∃ t : State, ∀ script turn, exec i (s.withEnvironment script turn) = .next (t.withEnvironment script turn)

/-- The instructions that read no input: those with a fault by the two outcomes, those with a loop by its own lemma. -/
theorem ignoresEnvironment {i : Instr} (s : State) (hskp : ∀ x, i ≠ .skpVx x) (hsknp : ∀ x, i ≠ .sknpVx x)
    (hkey : ∀ x, i ≠ .ldVxK x) (hrnd : ∀ x nn, i ≠ .rndVxNn x nn) : IgnoresEnvironment i s := by
  obtain ⟨t, ht, -⟩ := exec_frame i s
  cases i
  case skpVx x => exact absurd rfl (hskp x)
  case sknpVx x => exact absurd rfl (hsknp x)
  case ldVxK x => exact absurd rfl (hkey x)
  case rndVxNn x nn => exact absurd rfl (hrnd x nn)
  case call nnn =>
    by_cases hsp : s.sp.val = 64
    · exact ⟨s.raise .stackOverflow, fun _ _ => exec_call_of_full nnn hsp⟩
    · exact ⟨(s.push s.pc).jump (addressOperand nnn), fun _ _ => exec_call_of_room nnn hsp⟩
  case ret =>
    by_cases hsp : s.sp.val = 0
    · exact ⟨s.raise .stackUnderflow, fun _ _ => exec_ret_of_empty hsp⟩
    · exact ⟨s.pop.jump (s.topEntry + 2), fun _ _ => exec_ret_of_nonempty hsp⟩
  case drwVxVyN x y n =>
    exact ⟨afterDraw s x y n, fun script turn => congrArg _ (afterDraw_withEnvironment s script turn x y n)⟩
  case ldBVx x =>
    refine ⟨(storeDigits s (s.reg x)).advance, fun script turn => ?_⟩
    exact congrArg (fun t : State => (.next t.advance : Result)) (storeDigits_withEnvironment s script turn (s.reg x))
  case ldMemVx x =>
    refine ⟨((storeRegs s (x.val + 1)).setIndex (s.indexAfter x)).advance, fun script turn => ?_⟩
    exact congrArg (fun t : State => (.next (t.setIndex (s.indexAfter x)).advance : Result))
      (storeRegs_withEnvironment s script turn (x.val + 1))
  case ldVxMem x =>
    refine ⟨((loadRegs s (x.val + 1)).setIndex (s.indexAfter x)).advance, fun script turn => ?_⟩
    exact congrArg (fun t : State => (.next (t.setIndex (s.indexAfter x)).advance : Result))
      (loadRegs_withEnvironment s script turn (x.val + 1))
  all_goals
    refine ⟨t, fun _ _ => ?_⟩
    obtain rfl := Host.Outcome.next.inj ht
    rfl

theorem State.keyPressed_congr {a b : State} (h : a.inputs.keyHeld = b.inputs.keyHeld) (vx : Byte) :
    a.keyPressed vx = b.keyPressed vx := by simp only [State.keyPressed, h]

/-- Settles O17: the instructions that read an input read the same one under both environments, the others read none. -/
theorem inputsNotReadHaveNoEffect : Obligations.InputsNotReadHaveNoEffect := by
  intro i s script₁ script₂ turn₁ turn₂ hread
  cases i
  case skpVx x =>
    refine ⟨s.skipIf ((s.withEnvironment script₁ turn₁).keyPressed (s.reg x)), rfl, ?_⟩
    rw [State.keyPressed_congr hread]
    rfl
  case sknpVx x =>
    refine ⟨s.skipIf (!(s.withEnvironment script₁ turn₁).keyPressed (s.reg x)), rfl, ?_⟩
    rw [State.keyPressed_congr hread]
    rfl
  case rndVxNn x nn =>
    refine ⟨(s.setReg x ((s.withEnvironment script₁ turn₁).inputs.rngByte &&& nn)).takeRngByte.advance, rfl, ?_⟩
    have hbyte : (s.withEnvironment script₁ turn₁).inputs.rngByte = (s.withEnvironment script₂ turn₂).inputs.rngByte :=
      hread
    rw [hbyte]
    rfl
  case ldVxK x =>
    obtain ⟨hheld, hevent⟩ := hread
    by_cases hw : Waits (s.withEnvironment script₁ turn₁)
    · refine ⟨s, exec_ldVxK_of_waits x hw, exec_ldVxK_of_waits x ?_⟩
      rwa [Waits, hheld, hevent] at hw
    · obtain ⟨hheld₁, key, hevent₁⟩ := not_waits_iff.mp hw
      exact ⟨(s.setReg x (BitVec.ofNat 8 key.val)).takeKeyEvent.advance, exec_ldVxK_of_event x hheld₁ hevent₁,
        exec_ldVxK_of_event x (hheld ▸ hheld₁) (hevent ▸ hevent₁)⟩
  all_goals
    refine (ignoresEnvironment s ?_ ?_ ?_ ?_).imp fun t ht => ⟨ht script₁ turn₁, ht script₂ turn₂⟩
    all_goals simp

end Sys2Proof.Machine
end

section
/-! PROOFS. A step as a whole (40_step_cycle.md R71): it runs the decoded instruction, it always answers, and its outputs are
set exactly for their causes. -/

namespace Sys2Proof.Machine

/-! The dispatch. -/

theorem step_of_invalid {s : State} {r : Rejection} (h : s.coming = .invalid r) :
    step s = finishTurn (execInvalid s.begin.fetch.2) := by
  rw [State.coming] at h
  simp only [step_eq, runWord, h]

theorem State.endTurn_same (t : State) (p : Part) : Part.Same t t.endTurn p := by
  cases p with
  | screen => exact fun _ _ => rfl
  | byte ea => exact fun _ _ => rfl
  | _ => rfl

/-- Settles O8: by what was fetched, and the end of the turn field by field. -/
theorem stepRunsTheDecodedInstruction : Obligations.StepRunsTheDecodedInstruction := by
  refine fun s => ⟨fun i hi t ht => ?_, fun r hr t ht => ?_, fun t => ⟨t.endTurn_same, rfl, rfl, rfl⟩⟩
  · rw [step_of_coming hi, ht, finishTurn]
  · rw [step_of_invalid hr, ht, finishTurn]

/-- Settles O11: every instruction answers a next state, and so does the invalid word's rule. -/
theorem everyStateHasANextActivation : Obligations.EveryStateHasANextActivation := by
  intro s
  cases hc : s.coming with
  | instr i =>
    obtain ⟨t, ht, -⟩ := exec_frame i s.begin.fetch.2
    exact ⟨t.endTurn, by rw [step_of_coming hc, ht, finishTurn]⟩
  | invalid r => exact ⟨_, step_of_invalid hc⟩

/-! What the instruction of a step finds: the fetch changes the outputs alone, after they were cleared. -/

theorem State.fetch_begin_out (s : State) : s.begin.fetch.2.out = { Outputs.cleared with
    diag := { Outputs.cleared.diag with addrWrap := decide (4095 ≤ s.pc.toNat) } } := by
  rw [State.fetch_out, State.begin_out, State.begin_pc]
  rfl

theorem State.fetch_begin_sp (s : State) : s.begin.fetch.2.sp = s.sp := by rw [State.fetch_state, State.begin_sp]

theorem State.fetch_begin_i (s : State) : s.begin.fetch.2.i = s.i := by rw [State.fetch_state, State.begin_i]

theorem State.fetch_begin_reg (s : State) (r : Reg) : s.begin.fetch.2.reg r = s.reg r :=
  State.reg_of_v (by rw [State.fetch_state, State.begin_v]) r

theorem State.fetch_begin_inputs (s : State) : s.begin.fetch.2.inputs = s.inputs :=
  State.inputs_of_environment (by rw [State.fetch_state, State.begin_script])
    (by rw [State.fetch_state, State.begin_turn])

/-! The outputs in the write sets. -/

section Outputs

variable {s t : State} {i : Instr}

/-- A part outside the write set is as before. -/
theorem exec_same {p : Part} (h : exec i s = .next t) (hp : p ∉ writeSet s i) : p.Same s t := by
  obtain ⟨u, hu, hframe, -⟩ := exec_frame i s
  obtain rfl := Host.Outcome.next.inj (h.symm.trans hu)
  exact hframe p hp

theorem mem_ite_iff {c : Prop} [Decidable c] {p : Part} {a b : List Part} :
    (p ∈ if c then a else b) ↔ if c then p ∈ a else p ∈ b := by split <;> rfl

/-! Arm by arm of the write set. -/

theorem redraw_mem_writeSet_iff : .redraw ∈ writeSet s i ↔ ∃ x y n, i = .drwVxVyN x y n := by
  cases i <;> simp [writeSet, bytesAtIndex, regsUpTo, mem_ite_iff]

theorem keyEventTaken_mem_writeSet_iff :
    .keyEventTaken ∈ writeSet s i ↔ (∃ x, i = .ldVxK x) ∧ ¬Waits s := by
  cases i <;> simp [writeSet, bytesAtIndex, regsUpTo, mem_ite_iff]

theorem invalidInstruction_not_mem_writeSet : .flag .invalidInstruction ∉ writeSet s i := by
  cases i <;> simp [writeSet, bytesAtIndex, regsUpTo, mem_ite_iff]

theorem stackOverflow_mem_writeSet_iff :
    .flag .stackOverflow ∈ writeSet s i ↔ (∃ nnn, i = .call nnn) ∧ s.sp.val = 64 := by
  cases i <;> simp [writeSet, bytesAtIndex, regsUpTo, mem_ite_iff]

theorem stackUnderflow_mem_writeSet_iff :
    .flag .stackUnderflow ∈ writeSet s i ↔ i = .ret ∧ s.sp.val = 0 := by
  cases i <;> simp [writeSet, bytesAtIndex, regsUpTo, mem_ite_iff]

/-- An output that is clear before is set exactly by the instructions that have it in their write set and set it. -/
theorem output_iff_cause (get : State → Bool) {p : Part} {cause : Prop} (h : exec i s = .next t)
    (hsame : p.Same s t → get t = get s) (hclear : get s = false) (hmem : p ∈ writeSet s i ↔ cause)
    (hset : cause → get t = true) : get t = true ↔ cause := by
  by_cases hc : cause
  · exact iff_of_true (hset hc) hc
  · rw [hsame (exec_same h (mt hmem.mp hc)), hclear]
    exact iff_of_false Bool.false_ne_true hc

theorem exec_redraw_iff (h : exec i s = .next t) (hclear : s.out.redraw = false) :
    t.out.redraw = true ↔ ∃ x y n, i = .drwVxVyN x y n := by
  refine output_iff_cause (·.out.redraw) h id hclear redraw_mem_writeSet_iff ?_
  rintro ⟨x, y, n, rfl⟩
  obtain rfl := Host.Outcome.next.inj ((exec_drwVxVyN x y n s).symm.trans h)
  rw [afterDraw_out]

theorem exec_keyEventTaken_iff (h : exec i s = .next t) (hclear : s.out.keyEventTaken = false) :
    t.out.keyEventTaken = true ↔ (∃ x, i = .ldVxK x) ∧ ¬Waits s := by
  refine output_iff_cause (·.out.keyEventTaken) h id hclear keyEventTaken_mem_writeSet_iff ?_
  rintro ⟨⟨x, rfl⟩, hw⟩
  obtain ⟨hheld, key, hevent⟩ := not_waits_iff.mp hw
  obtain rfl := Host.Outcome.next.inj ((exec_ldVxK_of_event x hheld hevent).symm.trans h)
  rfl

theorem exec_invalidInstruction (h : exec i s = .next t) :
    t.out.diag.invalidInstruction = s.out.diag.invalidInstruction :=
  exec_same (p := .flag .invalidInstruction) h invalidInstruction_not_mem_writeSet

theorem exec_stackOverflow_iff (h : exec i s = .next t) (hclear : s.out.diag.stackOverflow = false) :
    t.out.diag.stackOverflow = true ↔ (∃ nnn, i = .call nnn) ∧ s.sp.val = 64 := by
  refine output_iff_cause (·.out.diag.stackOverflow) h id hclear stackOverflow_mem_writeSet_iff ?_
  rintro ⟨⟨nnn, rfl⟩, hsp⟩
  obtain rfl := Host.Outcome.next.inj ((exec_call_of_full nnn hsp).symm.trans h)
  rfl

theorem exec_stackUnderflow_iff (h : exec i s = .next t) (hclear : s.out.diag.stackUnderflow = false) :
    t.out.diag.stackUnderflow = true ↔ i = .ret ∧ s.sp.val = 0 := by
  refine output_iff_cause (·.out.diag.stackUnderflow) h id hclear stackUnderflow_mem_writeSet_iff ?_
  rintro ⟨rfl, hsp⟩
  obtain rfl := Host.Outcome.next.inj ((exec_ret_of_empty hsp).symm.trans h)
  rfl

/-- ADDR_WRAP is noted at each access of a data byte: the four instructions with data bytes, each by its outputs. -/
theorem exec_addrWrap (h : exec i s = .next t) :
    t.out.diag.addrWrap = (s.out.diag.addrWrap || wrapsBefore s (dataBytes s i)) := by
  cases i
  case ldBVx x =>
    obtain rfl := Host.Outcome.next.inj ((exec_ldBVx x s).symm.trans h)
    rw [State.advance_out, storeDigits_out, dataBytes, wrapsBefore_last]
  case ldMemVx x =>
    obtain rfl := Host.Outcome.next.inj ((exec_ldMemVx x s).symm.trans h)
    rw [State.advance_out, State.setIndex_out, storeRegs_out, dataBytes]
  case ldVxMem x =>
    obtain rfl := Host.Outcome.next.inj ((exec_ldVxMem x s).symm.trans h)
    rw [State.advance_out, State.setIndex_out, loadRegs_out, dataBytes]
  case drwVxVyN x y n =>
    obtain rfl := Host.Outcome.next.inj ((exec_drwVxVyN x y n s).symm.trans h)
    rw [afterDraw_out, dataBytes, rowsDrawn, State.originRow]
  all_goals
    have hsame := exec_same (p := .flag .addrWrap) h (by simp [writeSet, mem_ite_iff])
    exact hsame.trans (by simp [dataBytes, wrapsBefore, Diag.flag])

theorem dataBytes_congr (h : ∀ r, t.reg r = s.reg r) : dataBytes t i = dataBytes s i := by
  cases i <;> simp only [dataBytes, h]

end Outputs

/-! The outputs of a step. -/

section StepOutputs

variable {s t : State}

/-- Settles O12: the instruction of a step finds `redraw` clear, and DRW alone sets it. -/
theorem redrawExactlyForSpriteDraw : Obligations.RedrawExactlyForSpriteDraw := by
  intro s t h
  have hclear : s.begin.fetch.2.out.redraw = false := by rw [s.fetch_begin_out]; rfl
  obtain ⟨i, u, hc, hu, rfl⟩ | ⟨r, hc, rfl⟩ := step_cases h
  · simpa only [State.endTurn_out, hc, Decoded.instr.injEq] using exec_redraw_iff hu hclear
  · rw [hc]
    exact iff_of_false (ne_true_of_eq_false hclear) (by simp)

theorem keyEventTaken_of_step_iff (h : step s = .next t) :
    t.out.keyEventTaken = true ↔ (∃ x, s.coming = .instr (.ldVxK x)) ∧ ¬Waits s := by
  have hclear : s.begin.fetch.2.out.keyEventTaken = false := by rw [s.fetch_begin_out]; rfl
  obtain ⟨i, u, hc, hu, rfl⟩ | ⟨r, hc, rfl⟩ := step_cases h
  · simpa only [State.endTurn_out, hc, Decoded.instr.injEq, Waits, s.fetch_begin_inputs] using
      exec_keyEventTaken_iff hu hclear
  · rw [hc]
    exact iff_of_false (ne_true_of_eq_false hclear) (by simp)

/-- Settles O13: the event by its own output, the random byte as for O52. -/
theorem takenOutputsExactlyForTheirInstructions : Obligations.TakenOutputsExactlyForTheirInstructions :=
  fun _ _ h => ⟨keyEventTaken_of_step_iff h, rngTaken_of_step_iff h⟩

theorem invalidInstruction_of_step_iff (h : step s = .next t) :
    t.out.diag.invalidInstruction = true ↔ ∃ r, s.coming = .invalid r := by
  have hclear : s.begin.fetch.2.out.diag.invalidInstruction = false := by rw [s.fetch_begin_out]; rfl
  obtain ⟨i, u, hc, hu, rfl⟩ | ⟨r, hc, rfl⟩ := step_cases h
  · rw [hc]
    exact iff_of_false (ne_true_of_eq_false ((exec_invalidInstruction hu).trans hclear)) (by simp)
  · exact iff_of_true rfl ⟨r, hc⟩

theorem stackOverflow_of_step_iff (h : step s = .next t) :
    t.out.diag.stackOverflow = true ↔ (∃ nnn, s.coming = .instr (.call nnn)) ∧ s.sp.val = 64 := by
  have hclear : s.begin.fetch.2.out.diag.stackOverflow = false := by rw [s.fetch_begin_out]; rfl
  obtain ⟨i, u, hc, hu, rfl⟩ | ⟨r, hc, rfl⟩ := step_cases h
  · simpa only [State.endTurn_out, hc, Decoded.instr.injEq, s.fetch_begin_sp] using exec_stackOverflow_iff hu hclear
  · rw [hc]
    exact iff_of_false (ne_true_of_eq_false hclear) (by simp)

theorem stackUnderflow_of_step_iff (h : step s = .next t) :
    t.out.diag.stackUnderflow = true ↔ s.coming = .instr .ret ∧ s.sp.val = 0 := by
  have hclear : s.begin.fetch.2.out.diag.stackUnderflow = false := by rw [s.fetch_begin_out]; rfl
  obtain ⟨i, u, hc, hu, rfl⟩ | ⟨r, hc, rfl⟩ := step_cases h
  · simpa only [State.endTurn_out, hc, Decoded.instr.injEq, s.fetch_begin_sp] using exec_stackUnderflow_iff hu hclear
  · rw [hc]
    exact iff_of_false (ne_true_of_eq_false hclear) (by simp)

theorem addrWrap_of_step_iff (h : step s = .next t) :
    t.out.diag.addrWrap = true ↔
      4096 ≤ s.pc.toNat + 1 ∨ ∃ i k, s.coming = .instr i ∧ k < dataBytes s i ∧ 4096 ≤ s.i.toNat + k := by
  have hfetch : s.begin.fetch.2.out.diag.addrWrap = decide (4096 ≤ s.pc.toNat + 1) := by
    rw [s.fetch_begin_out]
    exact decide_eq_decide.mpr (by omega)
  obtain ⟨i, u, hc, hu, rfl⟩ | ⟨r, hc, rfl⟩ := step_cases h
  · rw [State.endTurn_out, exec_addrWrap hu, hfetch, dataBytes_congr s.fetch_begin_reg, wrapsBefore]
    simp only [Bool.or_eq_true, decide_eq_true_eq, State.indexRaw, s.fetch_begin_i, hc, Decoded.instr.injEq,
      exists_and_left, exists_eq_left']
  · rw [hc]
    exact (Bool.eq_iff_iff.mp hfetch).trans (by simp)

end StepOutputs

/-- Settles O14: each flag by its own lemma. -/
theorem diagnosticsExactlyForTheirCauses : Obligations.DiagnosticsExactlyForTheirCauses :=
  fun _ _ h => ⟨invalidInstruction_of_step_iff h, stackOverflow_of_step_iff h, stackUnderflow_of_step_iff h,
    addrWrap_of_step_iff h⟩

end Sys2Proof.Machine
end

section
/-! PROOFS. Memory (20_memory.md R30 to R33): a write and a read, and the canonical form as a name for what memory reads as. -/

namespace Sys2Proof.Machine

/-- Settles O18: the byte, the frame and the outputs of a write, and those of a read. -/
theorem memoryWriteThenRead : Obligations.MemoryWriteThenRead := by
  refine fun s raw v => ⟨fun a => s.byteAt_memWrite raw a v, ?_, ?_, s.noteAccess_frame raw, ?_⟩
  · exact (s.memWrite_frame raw v).mono (by simp)
  · rw [State.memWrite_out, accessWraps]
  · rw [State.memRead, State.noteAccess_out, accessWraps]

/-! The canonical form (log 6). -/

section CanonicalForm

variable {font : Vector Byte 80} {m : Memory} {a : Nat} {b : Byte}

/-- Among rising addresses a cell is listed exactly when a search for its address finds its byte. -/
theorem Memory.find_eq_some_iff (hm : m.Pairwise fun c d => c.1 < d.1) : m.find a = some b ↔ (a, b) ∈ m := by
  induction m with
  | nil => simp [Memory.find]
  | cons c rest ih =>
    obtain ⟨k, v⟩ := c
    obtain ⟨hk, hrest⟩ := List.pairwise_cons.mp hm
    rw [Memory.find, List.mem_cons, Prod.mk.injEq, ← ih hrest]
    by_cases hka : k = a
    · subst hka
      have hnot : Memory.find rest k ≠ some b := fun hf => Nat.lt_irrefl k (hk _ ((ih hrest).mp hf))
      simp [hnot, eq_comm]
    · simp [hka, Ne.symm hka]

/-- In canonical form the cells are the addresses that read other than at reset, with what they read as. -/
theorem Memory.mem_iff_read (hm : m.wf font) :
    (a, b) ∈ m ↔ a < 4096 ∧ b ≠ resetByte font a ∧ m.read font a = b := by
  obtain ⟨hrising, hcells⟩ := hm
  rw [Memory.read]
  constructor
  · intro hab
    obtain ⟨ha, hb⟩ := hcells _ hab
    rw [(Memory.find_eq_some_iff hrising).mpr hab]
    exact ⟨ha, hb, rfl⟩
  · rintro ⟨-, hb, hread⟩
    cases hf : m.find a with
    | none => exact absurd (by rw [← hread, hf, Option.getD_none]) hb
    | some v =>
      rw [hf, Option.getD_some] at hread
      exact (Memory.find_eq_some_iff hrising).mp (hread ▸ hf)

end CanonicalForm

/-- Settles O21: memories that read alike list the same cells, and rising lists of the same cells are equal. -/
theorem memoriesThatReadAlikeAreEqual : Obligations.MemoriesThatReadAlikeAreEqual := by
  intro font m₁ m₂ h₁ h₂ hread
  have : Std.Antisymm fun c d : Host.Cell => c.1 < d.1 := ⟨fun _ _ hcd hdc => absurd hcd (Nat.lt_asymm hdc)⟩
  have : Std.Irrefl fun c d : Host.Cell => c.1 < d.1 := ⟨fun _ => Nat.lt_irrefl _⟩
  refine h₁.1.eq_of_mem_iff h₂.1 ?_
  rintro ⟨a, b⟩
  rw [Memory.mem_iff_read h₁, Memory.mem_iff_read h₂]
  exact and_congr_right fun ha => by rw [hread a ha]

end Sys2Proof.Machine
end

section
/-! PROOFS. Creation and the loader (10_state.md R21, 70_reset_and_hazards.md R181). -/

namespace Sys2Proof.Machine

/-- Settles O20: at reset memory lists nothing. -/
theorem resetMemoryIsCanonical : Obligations.ResetMemoryIsCanonical := Memory.nil_wf

/-! What creation leaves. -/

theorem resetByte_of_lt (font : Vector Byte 80) {a : Nat} (h : a < 80) : resetByte font a = font[a] := by
  rw [resetByte, Vector.getElem?_eq_getElem h, Option.getD_some]

theorem resetByte_of_le (font : Vector Byte 80) {a : Nat} (h : 80 ≤ a) : resetByte font a = 0 := by
  rw [resetByte, Vector.getElem?_eq_none h, Option.getD_none]

section Created

variable (cfg : Config)

theorem byteAt_created {a : Nat} (h : a < 4096) : (State.created cfg).byteAt a = resetByte cfg.font a := by
  rw [State.byteAt, effectiveAddress, Nat.mod_eq_of_lt h]
  rfl

theorem created_inv : Inv (State.created cfg) := Memory.nil_wf

theorem reg_created (r : Reg) : (State.created cfg).reg r = 0 := Vector.getElem_replicate r.isLt

theorem stackEntry_created (k : Nat) : (State.created cfg).stackEntry k = 0 := by
  rw [State.stackEntry, State.created, Vector.getElem?_replicate]
  split <;> rfl

/-- The screen at creation is a clear one. -/
theorem pixel_created (row col : Nat) : (State.created cfg).pixel row col = false :=
  (State.pixel_of_fb (s := (State.created cfg).clearScreen) rfl row col).trans (State.pixel_clearScreen _ row col)

end Created

/-- Settles O22: field by field, and the bytes from the reset contents. -/
theorem creationZeroesAllButPcAndFont : Obligations.CreationZeroesAllButPcAndFont := by
  refine fun cfg => ⟨rfl, reg_created cfg, rfl, rfl, stackEntry_created cfg, rfl, rfl, pixel_created cfg,
    fun a ha => ?_, fun a hle hlt => ?_, rfl⟩
  · rw [byteAt_created cfg (by omega), resetByte_of_lt]
  · rw [byteAt_created cfg hlt, resetByte_of_le _ hle]

/-! What the loader writes. -/

theorem loadBytes_leaves {β : Type} (π : State → β) (h : ∀ t a b, π (State.storeByte t a b) = π t) (s : State) (a : Nat)
    (program : List Byte) : π (s.loadBytes a program) = π s := by
  induction program generalizing s a with
  | nil => rfl
  | cons b rest ih => rw [State.loadBytes, ih, h]

theorem loadBytes_inv {s : State} (hs : Inv s) (a : Nat) (program : List Byte) : Inv (s.loadBytes a program) := by
  induction program generalizing s a with
  | nil => exact hs
  | cons b rest ih => exact ih (hs.storeByte a b) (a + 1)

/-- A byte before or after the program is as before. -/
theorem byteAt_loadBytes_outside (s : State) {a x : Nat} {program : List Byte} (hroom : a + program.length ≤ 4096)
    (hx : x < 4096) (h : x < a ∨ a + program.length ≤ x) : (s.loadBytes a program).byteAt x = s.byteAt x := by
  induction program generalizing s a with
  | nil => rfl
  | cons b rest ih =>
    rw [List.length_cons] at hroom h
    rw [State.loadBytes, ih _ (by omega) (by omega), State.byteAt_storeByte, if_neg (by omega)]

theorem byteAt_loadBytes (s : State) {a k : Nat} {program : List Byte} (hroom : a + program.length ≤ 4096)
    (hk : k < program.length) : (s.loadBytes a program).byteAt (a + k) = program[k] := by
  induction program generalizing s a k with
  | nil => simp at hk
  | cons b rest ih =>
    rw [List.length_cons] at hroom hk
    rw [State.loadBytes]
    cases k with
    | zero =>
      rw [byteAt_loadBytes_outside _ (by omega) (by omega) (by omega), State.byteAt_storeByte,
        if_pos (by rw [Nat.add_zero]), List.getElem_cons_zero]
    | succ k =>
      rw [show a + (k + 1) = a + 1 + k by omega, ih _ (by omega) (by omega), List.getElem_cons_succ]

theorem boot_of_fits {program : List Byte} (cfg : Config) (h : program.length ≤ 3584) :
    boot cfg program = .next ((State.created cfg).loadBytes 512 program) := if_pos h

theorem boot_of_too_long {program : List Byte} (cfg : Config) (h : 3584 < program.length) :
    boot cfg program = .refused .programTooLong := if_neg (Nat.not_le_of_lt h)

/-- Settles O23: the loader's stores touch memory alone, so all else is as at creation, and memory but for the program. -/
theorem loaderPlacesProgramOrRefuses : Obligations.LoaderPlacesProgramOrRefuses := by
  refine fun cfg program => ⟨fun hfits => ?_, boot_of_too_long cfg⟩
  have hroom : 512 + program.length ≤ 4096 := by omega
  have hkept {β : Type} (π : State → β) (h : ∀ t a b, π (State.storeByte t a b) = π t) :
      π ((State.created cfg).loadBytes 512 program) = π (State.created cfg) := loadBytes_leaves π h _ _ _
  refine ⟨_, boot_of_fits cfg hfits, loadBytes_inv (created_inv cfg) _ _, hkept State.cfg (by simp),
    congrArg _ (hkept State.pc (by simp)), fun r => ?_, hkept State.i (by simp), congrArg _ (hkept State.sp (by simp)),
    fun k => ?_, hkept State.dt (by simp), hkept State.st (by simp), fun row col => ?_, fun a ha => ?_, fun k hk => ?_,
    fun a hle hlt hout => ?_⟩
  · rw [State.reg_of_v (hkept State.v (by simp)), reg_created]
  · rw [State.stackEntry_of_stack (hkept State.stack (by simp)), stackEntry_created]
  · rw [State.pixel_of_fb (hkept State.fb (by simp)), pixel_created]
  · rw [byteAt_loadBytes_outside _ hroom (by omega) (by omega), byteAt_created cfg (by omega), resetByte_of_lt]
  · exact byteAt_loadBytes _ hroom hk
  · rw [byteAt_loadBytes_outside _ hroom hlt hout, byteAt_created cfg hlt, resetByte_of_le _ hle]

end Sys2Proof.Machine
end

section
/-! PROOFS. Before the instruction: the ticks (60_exceptions.md R170), the cleared outputs (40_step_cycle.md R71) and the
word that is fetched (R72). -/

namespace Sys2Proof.Machine

/-! The ticks. -/

theorem State.tick_frame (s : State) : KeepsAllBut [.delay, .sound] s s.tick :=
  .of_timers_and_outputs [.delay, .sound] _ _ s.out (by simp) (by simp) (by simp) (by simp) (by simp) (by simp)

theorem ticks_eq_iterate_tick (s : State) (n : Nat) : s.ticks n = State.tick^[n] s := by
  induction n generalizing s with
  | zero => rfl
  | succ n ih => exact ih s.tick

/-- Settles O24: one timer at a time, and the ticks of a turn by their number. -/
theorem ticksLowerBothTimersTowardZero : Obligations.TicksLowerBothTimersTowardZero :=
  fun s => ⟨⟨tickTimer_toNat s.dt, tickTimer_toNat s.st, s.tick_frame⟩, ticks_eq_iterate_tick s⟩

theorem flag_mem_allOutputs (c : Cause) : .flag c ∈ allOutputs := by cases c <;> decide

theorem State.begin_frame (s : State) : KeepsAllBut ([.delay, .sound] ++ allOutputs) s s.begin :=
  .of_timers_and_outputs _ _ _ _ (by simp) (by simp) (by simp [allOutputs]) (by simp [flag_mem_allOutputs])
    (by simp [allOutputs]) (by simp [allOutputs])

/-- Settles O7: the frame of the ticks and the cleared outputs, and each timer after its ticks. -/
theorem activationBeginsWithClearedOutputs : Obligations.ActivationBeginsWithClearedOutputs :=
  fun s => ⟨s.begin_frame, s.begin_out, tickTimes_toNat _ s.dt, tickTimes_toNat _ s.st⟩

/-! The word in its place. -/

/-- The fetched word depends on `pc` and memory only. -/
theorem State.fetch_word_congr {s t : State} (hpc : t.pc = s.pc) (hmem : t.mem = s.mem) (hcfg : t.cfg = s.cfg) :
    t.fetch.1 = s.fetch.1 := by
  rw [t.fetch_word, s.fetch_word, hpc, State.byteAt_of_mem hmem hcfg, State.byteAt_of_mem hmem hcfg]

theorem State.begin_fetch_word (s : State) : s.begin.fetch.1 = s.fetch.1 :=
  State.fetch_word_congr s.begin_pc s.begin_mem s.begin_cfg

theorem tableWord_toNat (w : Word) : tableWord 16 w.toNat = w := by
  rw [tableWord, Nat.mod_eq_of_lt w.isLt, BitVec.ofNat_toNat, BitVec.setWidth_eq]

theorem State.withFetchWord_toNat (s : State) (w : Word) : s.withFetchWord 16 w.toNat = s.placeWord w := by
  rw [State.withFetchWord, tableWord_toNat]

theorem State.byteAt_placeWord (s : State) (w : Word) (a : Nat) : (s.placeWord w).byteAt a =
    if a % 4096 = (s.pc.toNat + 1) % 4096 then lowByte w
    else if a % 4096 = s.pc.toNat % 4096 then highByte w else s.byteAt a := by
  rw [State.placeWord, State.byteAt_storeByte, State.byteAt_storeByte]

theorem State.placeWord_fetch_word (s : State) (w : Word) : (s.placeWord w).fetch.1 = w := by
  have hhigh : (s.placeWord w).byteAt s.pc.toNat = highByte w := by
    rw [State.byteAt_placeWord, if_neg (by omega), if_pos rfl]
  have hlow : (s.placeWord w).byteAt (s.pc.toNat + 1) = lowByte w := by
    rw [State.byteAt_placeWord, if_pos rfl]
  rw [State.fetch_word, show (s.placeWord w).pc = s.pc from rfl, hhigh, hlow, wordOfBytes_bytes]

theorem State.placeWord_frame (s : State) (w : Word) :
    KeepsAllBut [.byte (effectiveAddress s.pc.toNat), .byte (effectiveAddress (s.pc.toNat + 1))] s (s.placeWord w) :=
  ((s.storeByte_frame _ _).mono (by simp)).trans ((State.storeByte_frame _ _ _).mono (by simp))

/-- Settles O9: the two bytes stored are the two the fetch reads, at different addresses. -/
theorem storedWordIsTheOneFetched : Obligations.StoredWordIsTheOneFetched := by
  intro s w
  rw [State.withFetchWord_toNat]
  refine ⟨?_, s.placeWord_frame w, fun a hfirst hsecond => ?_⟩
  · rw [State.begin_fetch_word, State.placeWord_fetch_word]
  · rw [State.byteAt_placeWord, if_neg hsecond, if_neg hfirst]

end Sys2Proof.Machine
end

section
/-! PROOFS. Steps that stand still: the finished program (70_reset_and_hazards.md R188) and the two stack faults
(60_exceptions.md R163, R164). -/

namespace Sys2Proof.Machine

/-- The ticks are all that the instruction of a step finds changed of Machine State. -/
theorem State.fetch_begin_same (s : State) : SameMachineState (s.ticks s.turnNow.ticks) s.begin.fetch.2 := by
  rw [State.fetch_state]
  exact ⟨rfl, rfl, rfl, rfl, rfl, rfl, rfl, rfl, rfl⟩

theorem State.coming_congr {s t : State} (hpc : t.pc = s.pc) (hmem : t.mem = s.mem) (hcfg : t.cfg = s.cfg) :
    t.coming = s.coming := by
  rw [State.coming, State.coming, State.begin_fetch_word, State.begin_fetch_word,
    State.fetch_word_congr hpc hmem hcfg]

/-! The finished program. -/

/-- The state after the step of a jump to itself. -/
def afterSelfJump (s : State) : State := (s.begin.fetch.2.jump s.pc).endTurn

theorem addressOperand_toNat_self (a : Word) : addressOperand a.toNat = a := by
  rw [addressOperand, BitVec.ofNat_toNat, BitVec.setWidth_eq]

theorem step_of_finished {s : State} (h : Finished s) : step s = .next (afterSelfJump s) := by
  have hcoming : s.coming = .instr (.jp s.pc.toNat) := by rw [State.coming, s.begin_fetch_word, h.2]
  rw [step_of_coming hcoming, exec_jp, addressOperand_toNat_self]
  rfl

theorem afterSelfJump_same (s : State) : SameMachineState (s.ticks s.turnNow.ticks) (afterSelfJump s) := by
  obtain ⟨hv, -, hrest⟩ := s.fetch_begin_same
  exact ⟨hv, rfl, hrest⟩

theorem afterSelfJump_cfg (s : State) : (afterSelfJump s).cfg = s.cfg := by
  rw [afterSelfJump, State.endTurn_cfg, State.jump_cfg, State.fetch_state, State.begin_cfg]

theorem afterSelfJump_finished {s : State} (h : Finished s) : Finished (afterSelfJump s) := by
  obtain ⟨-, hpc, -, -, -, -, -, -, hmem⟩ := afterSelfJump_same s
  rw [Finished, State.fetch_word_congr (s := s) hpc hmem (afterSelfJump_cfg s)]
  exact h

/-- The fetch of a finished program does not wrap: both its bytes lie below 4096. -/
theorem afterSelfJump_clean {s : State} (h : Finished s) : Clean (afterSelfJump s) := by
  have hwrap : ¬4095 ≤ s.pc.toNat := by have := h.1; omega
  rw [Clean, afterSelfJump, State.endTurn_out, State.jump_out, State.fetch_begin_out, decide_eq_false hwrap]
  rfl

/-- Settles O25: the step is a jump to where `pc` is, so the same word comes again. -/
theorem finishedProgramStandsStill : Obligations.FinishedProgramStandsStill :=
  fun s h => ⟨_, step_of_finished h, afterSelfJump_same s, afterSelfJump_finished h, afterSelfJump_clean h⟩

/-! The stack faults. -/

/-- The state after a step whose instruction faults: the flag, and the turn ended. -/
def afterFault (s : State) (c : Cause) : State := (s.begin.fetch.2.raise c).endTurn

theorem step_of_fault {s : State} {i : Instr} {c : Cause} (h : s.coming = .instr i)
    (hexec : exec i s.begin.fetch.2 = .next (s.begin.fetch.2.raise c)) : step s = .next (afterFault s c) := by
  rw [step_of_coming h, hexec, finishTurn, afterFault]

theorem afterFault_same (s : State) (c : Cause) : SameMachineState (s.ticks s.turnNow.ticks) (afterFault s c) :=
  s.fetch_begin_same

theorem afterFault_coming (s : State) (c : Cause) : (afterFault s c).coming = s.coming := by
  obtain ⟨-, hpc, -, -, -, -, -, -, hmem⟩ := afterFault_same s c
  refine State.coming_congr hpc hmem ?_
  rw [afterFault, State.endTurn_cfg, State.raise_cfg, State.fetch_state, State.begin_cfg]

theorem afterFault_sp (s : State) (c : Cause) : (afterFault s c).sp = s.sp := s.fetch_begin_sp

theorem step_call_of_full {s : State} {nnn : Nat} (h : s.coming = .instr (.call nnn)) (hsp : s.sp.val = 64) :
    step s = .next (afterFault s .stackOverflow) :=
  step_of_fault h (exec_call_of_full nnn (by rw [s.fetch_begin_sp, hsp]))

theorem step_ret_of_empty {s : State} (h : s.coming = .instr .ret) (hsp : s.sp.val = 0) :
    step s = .next (afterFault s .stackUnderflow) :=
  step_of_fault h (exec_ret_of_empty (by rw [s.fetch_begin_sp, hsp]))

/-- Settles O31: a fault leaves `pc`, `sp` and memory, so the next step finds the same word and the same stack. -/
theorem stackFaultsChangeNothingAndRepeat : Obligations.StackFaultsChangeNothingAndRepeat := by
  refine ⟨fun nnn s h hsp => ?_, fun s h hsp => ?_⟩
  · have hagain : (afterFault s .stackOverflow).coming = .instr (.call nnn) := (afterFault_coming s _).trans h
    exact ⟨_, step_call_of_full h hsp, afterFault_same s _, rfl, hagain, _,
      step_call_of_full hagain (by rw [afterFault_sp, hsp]), rfl⟩
  · have hagain : (afterFault s .stackUnderflow).coming = .instr .ret := (afterFault_coming s _).trans h
    exact ⟨_, step_ret_of_empty h hsp, afterFault_same s _, rfl, hagain, _,
      step_ret_of_empty hagain (by rw [afterFault_sp, hsp]), rfl⟩

end Sys2Proof.Machine
end
